-- ==== Sys2Proof/Word.lean ====
section
/-! DEFINITION. The word types of CRCFD-IF (00_scope.md R9 to R11): all values are unsigned. -/

namespace Sys2Proof

/-- A byte, `u8`. -/
abbrev Byte := BitVec 8

/-- A `u16`: the CRC register and the `offset` and `length` operands (R9). -/
abbrev Half := BitVec 16

/-- A bus data word or a command word, `u32` (R10, R110). -/
abbrev Word := BitVec 32

/-- A bus byte address, `bus_addr[16:0]` (R10). -/
abbrev BusAddr := BitVec 17

end Sys2Proof
end

