-- ==== Sys2Proof/Syntax.lean ====
section
/-! DEFINITION. The command words of CRCFD-IF version 1 (30_encoding.md R110 to R113). -/

namespace Sys2Proof

/-- One constructor per row of spec/opcode_table.json (R113). The only operand in a command word is the byte of
CE_UPDATE; the other operands are registers (R112). -/
inductive Instr where
  /-- NOP, OPC 0x00 (30_encoding.md R120). -/
  | nop
  /-- CE_INIT, OPC 0x01 (40_crc_engine.md R137). -/
  | ceInit
  /-- CE_UPDATE `b`, OPC 0x02 (40_crc_engine.md R139). -/
  | ceUpdate (b : Byte)
  /-- CE_CRC16, OPC 0x03 (40_crc_engine.md R142). -/
  | ceCrc16
  /-- CE_VALIDATE, OPC 0x04 (40_crc_engine.md R147). -/
  | ceValidate
  /-- FD_POP, OPC 0x10 (41_frame_detector.md R175). -/
  | fdPop
  /-- FD_FLUSH, OPC 0x11 (41_frame_detector.md R176). -/
  | fdFlush
  /-- FD_QCLEAR, OPC 0x12 (41_frame_detector.md R177). -/
  | fdQclear
  deriving DecidableEq, Repr

/-- The three fields of format CW (R111): RSVD [31:16], DATA [15:8], OPC [7:0]. -/
structure CmdFields where
  rsvd : Half
  data : Byte
  opc  : Byte
  deriving DecidableEq, Repr

end Sys2Proof
end

