-- ==== Sys2Proof/WellFormed.lean ====
section
/-! DEFINITION. When the fields of a command word are legal (30_encoding.md R114). An `Instr` carries its operand as a
byte, so every `Instr` is well formed; what can be ill formed is a command word, by one of three checks. -/

namespace Sys2Proof

/-- The operation codes of R113. -/
def definedOpcodes : List Byte := [0x00, 0x01, 0x02, 0x03, 0x04, 0x10, 0x11, 0x12]

/-- R114, first condition: OPC is one of R113's. -/
def CmdFields.opcodeDefined (f : CmdFields) : Bool := definedOpcodes.contains f.opc

/-- R114, second condition: RSVD is 0. -/
def CmdFields.reservedZero (f : CmdFields) : Bool := f.rsvd == 0

/-- R114, third condition: DATA is 0 unless OPC is CE_UPDATE's. -/
def CmdFields.dataZeroUnlessUpdate (f : CmdFields) : Bool := f.data == 0 || f.opc == 0x02

/-- A command word with these fields is legal (R114). -/
def CmdFields.wellFormed (f : CmdFields) : Bool :=
  f.opcodeDefined && f.reservedZero && f.dataZeroUnlessUpdate

end Sys2Proof
end

