-- ==== Sys2Proof/Decode.lean ====
section
/-! DEFINITION. The decoder and the encoder of command words (30_encoding.md R111 to R117). -/

namespace Sys2Proof

/-- Why a command word is illegal (R114). The block shows only ERR_ILLEGAL; which of several reasons is named is the
model's choice and no state depends on it (log entry 17). -/
inductive DecodeError where
  /-- `cmd[31:16] ≠ 0`. -/
  | reservedBitsSet
  /-- `cmd[7:0]` is no operation code of R113. -/
  | opcodeReserved
  /-- `cmd[15:8] ≠ 0` on a command other than CE_UPDATE. -/
  | dataNotZero
  deriving DecidableEq, Repr

/-- What the decoder answers: total, a reason or one command (R114). -/
inductive Decoded where
  | illegal (e : DecodeError)
  | legal (i : Instr)
  deriving DecidableEq, Repr

/-- The fields of a command word (R111). -/
def CmdFields.ofWord (w : Word) : CmdFields :=
  { rsvd := w.extractLsb' 16 16, data := w.extractLsb' 8 8, opc := w.extractLsb' 0 8 }

/-- The command word of three fields (R111). -/
def CmdFields.toWord (f : CmdFields) : Word := f.rsvd ++ f.data ++ f.opc

/-- R113's commands without an operand. -/
def plainOpcodes : List (Byte × Instr) :=
  [(0x00, .nop), (0x01, .ceInit), (0x03, .ceCrc16), (0x04, .ceValidate), (0x10, .fdPop), (0x11, .fdFlush),
   (0x12, .fdQclear)]

/-- The decoder on the fields of a command word (R114). -/
def decodeFields (f : CmdFields) : Decoded :=
  if f.rsvd ≠ 0 then .illegal .reservedBitsSet
  else if f.opc = 0x02 then .legal (.ceUpdate f.data)
  else
    match plainOpcodes.lookup f.opc with
    | none => .illegal .opcodeReserved
    | some i => if f.data ≠ 0 then .illegal .dataNotZero else .legal i

/-- The decoder (R114): every 32-bit value is illegal or exactly one command. -/
def decode (w : Word) : Decoded := decodeFields (CmdFields.ofWord w)

/-- The fields of a command (R111, R113). -/
def Instr.fields : Instr → CmdFields
  | .nop => ⟨0, 0, 0x00⟩
  | .ceInit => ⟨0, 0, 0x01⟩
  | .ceUpdate b => ⟨0, b, 0x02⟩
  | .ceCrc16 => ⟨0, 0, 0x03⟩
  | .ceValidate => ⟨0, 0, 0x04⟩
  | .fdPop => ⟨0, 0, 0x10⟩
  | .fdFlush => ⟨0, 0, 0x11⟩
  | .fdQclear => ⟨0, 0, 0x12⟩

/-- The encoder: the word `CMD <mnemonic>` writes (R121). -/
def encode (i : Instr) : Word := i.fields.toWord

/-- The command's name in spec/opcode_table.json. -/
def Instr.mnemonic : Instr → String
  | .nop => "NOP"
  | .ceInit => "CE_INIT"
  | .ceUpdate _ => "CE_UPDATE"
  | .ceCrc16 => "CE_CRC16"
  | .ceValidate => "CE_VALIDATE"
  | .fdPop => "FD_POP"
  | .fdFlush => "FD_FLUSH"
  | .fdQclear => "FD_QCLEAR"

/-- The commands of the CE, OPC 0x01 to 0x04, which BUSY gates (R113, R118). -/
def Instr.isCeCommand : Instr → Bool
  | .nop => false
  | .ceInit => true
  | .ceUpdate _ => true
  | .ceCrc16 => true
  | .ceValidate => true
  | .fdPop => false
  | .fdFlush => false
  | .fdQclear => false

/-- A row of spec/opcode_table.json: a word belongs to it when its bits under the mask are the pattern. -/
structure OpcodeRow where
  mnemonic : String
  pattern  : Word
  mask     : Word
  deriving DecidableEq, Repr

/-- spec/opcode_table.json, row by row. -/
def opcodeTable : List OpcodeRow :=
  [⟨"NOP", 0x00000000, 0xFFFFFFFF⟩, ⟨"CE_INIT", 0x00000001, 0xFFFFFFFF⟩, ⟨"CE_UPDATE", 0x00000002, 0xFFFF00FF⟩,
   ⟨"CE_CRC16", 0x00000003, 0xFFFFFFFF⟩, ⟨"CE_VALIDATE", 0x00000004, 0xFFFFFFFF⟩, ⟨"FD_POP", 0x00000010, 0xFFFFFFFF⟩,
   ⟨"FD_FLUSH", 0x00000011, 0xFFFFFFFF⟩, ⟨"FD_QCLEAR", 0x00000012, 0xFFFFFFFF⟩]

/-- The command word whose low `nbits` bits are `w`'s, every bit above them 0. -/
def tableWord (nbits w : Nat) : Word := BitVec.ofNat 32 (w % 2 ^ nbits)

/-- The command the decoder reads from an instruction of `nbits` bits `w`. A command is one 32-bit word, so no
longer instruction exists (R117). -/
def decodeTableWord (nbits w : Nat) : Option Instr :=
  if 32 < nbits then none
  else
    match decode (tableWord nbits w) with
    | .legal i => some i
    | .illegal _ => none

end Sys2Proof
end

