-- ==== Sys2Proof/Config.lean ====
section
/-! DEFINITION. What the spec leaves open: constants without a body, so nothing can be proved of their values. -/

namespace Sys2Proof

/-- Clock cycles, beyond the first, that a block operation accepted at edge number `n` stays in flight: `CE_LAT - 1` of
that operation (00_scope.md R8, 40_crc_engine.md R149). Any finite value, one per operation (93 I1; log entry 4). -/
opaque Config.ceExtraLatency : Nat → Nat

/-- How many bytes the hidden cursor of an operation in flight moves at edge number `n`
(10_state.md R57 names the cursor and gives no pace; log entry 5). -/
opaque Config.ceStride : Nat → Nat

/-- The byte a DBUF index holds from reset number `epoch` until it is first written: unspecified and stable
(10_state.md R51, 93 I2; log entry 6). -/
opaque Config.unwrittenDbuf : (epoch index : Nat) → Byte

/-- `CLK_HZ - 1`: the parameter CLK_HZ is OPEN and greater than 0 (00_scope.md R8; log entry 8). -/
opaque Config.clkHzLessOne : Nat

/-- `BAUD_RESET - 1`: the parameter BAUD_RESET is OPEN and greater than 0 (00_scope.md R8; log entry 8). -/
opaque Config.baudResetLessOne : Nat

/-- SILENCE_RESET where its default formula gives no 32-bit value (00_scope.md R8; log entry 8). -/
opaque Config.silenceResetOther : Word

end Sys2Proof
end

