-- ==== Sys2Proof/Machine/Params.lean ====
section
/-! DEFINITION. The implementation parameters of 00_scope.md R8. -/

namespace Sys2Proof.Machine

/-- The parameters fixed when the block is built (R8). They are a field of State that no step changes, so that every
statement about a state holds for every build (log entry 7). CE_LAT is `Config.ceExtraLatency`. -/
structure Params where
  /-- `DBUF_BYTES`, the size of DBUF in bytes. -/
  dbufBytes : Nat
  /-- `FB`, the most bytes one frame can hold. -/
  fb : Nat
  /-- `QD`, the most completed frames the queue holds. -/
  qd : Nat
  /-- `CLK_HZ`. -/
  clkHz : Nat
  /-- `BAUD_RESET`. -/
  baudReset : Nat
  /-- `SILENCE_RESET`. -/
  silenceReset : Word
  deriving DecidableEq, Repr

/-- The legal values of R8. -/
def Params.legal (p : Params) : Bool :=
  p.dbufBytes % 4 == 0 && decide (8 ≤ p.dbufBytes) && decide (p.dbufBytes ≤ 65536) &&
  decide (6 ≤ p.fb) && decide (p.fb ≤ 16384) && decide (1 ≤ p.qd) && decide (p.qd ≤ 255) &&
  decide (0 < p.clkHz) && decide (0 < p.baudReset)

/-- `ceil(4 * clkHz / baud)`: four bit periods in clock cycles (R8, 41_frame_detector.md R181). -/
def silenceCycles (clkHz baud : Nat) : Nat := (4 * clkHz + baud - 1) / baud

/-- The default of SILENCE_RESET (R8). Where the formula exceeds 2^32-1 it gives no legal value, and the value is free
(log entry 8). -/
def silenceResetDefault (clkHz baud : Nat) : Word :=
  if silenceCycles clkHz baud < 2 ^ 32 then BitVec.ofNat 32 (silenceCycles clkHz baud)
  else Config.silenceResetOther

/-- `CLK_HZ` of the machine after reset: OPEN, greater than 0. -/
def openClkHz : Nat := Config.clkHzLessOne + 1

/-- `BAUD_RESET` of the machine after reset: OPEN, greater than 0. -/
def openBaudReset : Nat := Config.baudResetLessOne + 1

/-- The defaults of R8. -/
def Params.default : Params :=
  { dbufBytes := 256, fb := 256, qd := 2, clkHz := openClkHz, baudReset := openBaudReset,
    silenceReset := silenceResetDefault openClkHz openBaudReset }

end Sys2Proof.Machine
end

