-- ==== Sys2Proof/Machine/State.lean ====
section
/-! DEFINITION. The state of CRCFD (10_state.md), with the reasons a step can stop and the state after reset. -/

namespace Sys2Proof.Machine

/-- VREASON (10_state.md R42); the codes 5..7 are never produced and have no name (log entry 12). -/
inductive VReason where
  /-- No CE_VALIDATE has completed since reset. -/
  | none
  /-- `isValidFrame` answered true. -/
  | ok
  /-- Length under 6. -/
  | short
  /-- Unit id outside 1..247. -/
  | unitId
  /-- CRC mismatch. -/
  | crc
  deriving DecidableEq, Repr

/-- Why a frame boundary was declared (10_state.md R56); code 3 is never produced and has no name (log entry 12). -/
inductive Cause where
  /-- `isValidFrame` succeeded on the frame after its last byte. -/
  | valid
  /-- The silence timeout elapsed and no byte had been dropped. -/
  | silence
  /-- The silence timeout elapsed and bytes had been dropped. -/
  | overflow
  deriving DecidableEq, Repr

/-- The five sticky error flags (60_exceptions.md R206). -/
inductive Err where
  /-- ERR_ILLEGAL, CE_STATUS[8] (R201). -/
  | illegal
  /-- ERR_BUSY, CE_STATUS[9] (R202). -/
  | busy
  /-- ERR_RANGE, CE_STATUS[10] (R203). -/
  | range
  /-- ERR_OVF, FD_STATUS[8] (R204). -/
  | ovf
  /-- ERR_QOVR, FD_STATUS[9] (R204). -/
  | qovr
  deriving DecidableEq, Repr

/-- A frame record of the queue (10_state.md R56). -/
structure Frame where
  bytes : List Byte
  cause : Cause
  deriving DecidableEq, Repr

/-- Which block operation is in flight, with the operands read at acceptance (10_state.md R57). -/
inductive CeKind where
  | crc16 (off len : Half)
  | validate (len : Half)
  deriving DecidableEq, Repr

/-- An operation in flight (10_state.md R57). -/
structure InFlight where
  kind : CeKind
  /-- DBUF at the accepting edge. -/
  snap : Memory
  /-- The hidden cursor `i`, the next byte. -/
  cursor : Nat
  /-- The hidden working accumulator `w`. -/
  work : Half
  /-- The model's own: edges still to pass before the completing edge (40_crc_engine.md R149; log entry 4). -/
  wait : Nat
  deriving DecidableEq, Repr

/-- What the CRC Engine owns (10_state.md R30, R33 to R43, R51, R57). -/
structure Ce where
  /-- CE_CRC (R33). -/
  crc : Half
  /-- CE_OFFSET (R34). -/
  offset : Half
  /-- CE_LENGTH (R35). -/
  length : Half
  /-- ce_op (R57). -/
  op : Option InFlight
  /-- DONE (R41). -/
  done : Bool
  /-- VREASON (R42). -/
  vreason : VReason
  /-- ERR_ILLEGAL (R43). -/
  errIllegal : Bool
  /-- ERR_BUSY (R43). -/
  errBusy : Bool
  /-- ERR_RANGE (R43). -/
  errRange : Bool
  /-- DBUF (R51): the bytes written since reset. -/
  dbuf : Memory
  /-- The model's own: which reset left DBUF's unwritten bytes (log entry 6). -/
  epoch : Nat
  deriving DecidableEq, Repr

/-- What the Frame Boundary Detector owns (10_state.md R30, R45 to R47, R52 to R55). -/
structure Fd where
  /-- FD_CTRL.EN (R45). -/
  en : Bool
  /-- FD_SILENCE (R46). -/
  silence : Word
  /-- The assembling buffer (R52). -/
  asm : List Byte
  /-- asm_ovf (R53). -/
  asmOvf : Bool
  /-- sil_cnt (R54). -/
  silCnt : Word
  /-- The queue of completed frames, oldest first (R55). -/
  queue : List Frame
  /-- ERR_OVF (R47). -/
  errOvf : Bool
  /-- ERR_QOVR (R47). -/
  errQovr : Bool
  deriving DecidableEq, Repr

/-- What the host does on the bus in one cycle (20_memory.md R81). -/
inductive BusAccess where
  /-- `bus_sel` = 0. -/
  | idle
  /-- `bus_sel` = 1, `bus_we` = 0. -/
  | read (addr : BusAddr)
  /-- `bus_sel` = 1, `bus_we` = 1. -/
  | write (addr : BusAddr) (data : Word)
  deriving DecidableEq, Repr

/-- The inputs sampled at one rising edge (10_state.md R60 to R62). -/
structure EdgeInput where
  rst : Bool
  bus : BusAccess
  rxValid : Bool
  rxData : Byte
  rxActive : Bool
  deriving DecidableEq, Repr

/-- One entry of the host's script: one cycle's inputs, or the polling loop `WAITDONE`, whose number of cycles the
host decides as it reads (30_encoding.md R122, R123; log entries 1 and 10). -/
inductive HostStep where
  | cycle (e : EdgeInput)
  | waitDone
  deriving DecidableEq, Repr

/-- The whole state: the block's, and the outside world's script. -/
structure State where
  /-- The build's parameters, read back in PARAM_DBUF and PARAM_FD (00_scope.md R8, 10_state.md R36 and R37). -/
  params : Params
  /-- The CRC Engine. -/
  ce : Ce
  /-- The Frame Boundary Detector. -/
  fd : Fd
  /-- INT_EN[2:0]: IE_FRAME, IE_ERR, IE_DONE (10_state.md R44). -/
  intEn : BitVec 3
  /-- The model's own: the cycles still to come (log entry 1). -/
  script : List HostStep
  /-- The model's own: `bus_rdata` of the cycle just ended, if it was a read (log entry 2). -/
  busRdata : Option Word
  /-- The model's own: rising edges taken, the counter the free values are applied to (log entry 3). -/
  edges : Nat
  deriving DecidableEq, Repr

/-- Reasons for a fault: there is none, since the block never traps and gives every access one outcome
(60_exceptions.md R200, 20_memory.md R81; log entry 15). -/
inductive Fault where
  deriving DecidableEq, Repr

/-- Reasons for a refusal. -/
inductive Refusal where
  /-- A command that has no meaning in the model yet, raised by its arm of `exec`: safe. No arm raises it. -/
  | notModelled (mnemonic : String)
  deriving DecidableEq, Repr

/-- The CE's reset values (70_reset_and_hazards.md R230); DBUF's bytes are unspecified, named by `epoch`. -/
def Ce.reset (epoch : Nat) : Ce :=
  { crc := 0xFFFF, offset := 0, length := 0, op := none, done := false, vreason := .none,
    errIllegal := false, errBusy := false, errRange := false, dbuf := [], epoch := epoch }

/-- The FD's reset values (70_reset_and_hazards.md R230). -/
def Fd.reset (p : Params) : Fd :=
  { en := false, silence := p.silenceReset, asm := [], asmOvf := false, silCnt := 0, queue := [],
    errOvf := false, errQovr := false }

/-- The machine right after reset (70_reset_and_hazards.md R230), with the default parameters of 00_scope.md R8 and an
empty script. -/
def State.reset : State :=
  { params := Params.default, ce := Ce.reset 0, fd := Fd.reset Params.default, intEn := 0,
    script := [], busRdata := none, edges := 0 }

end Sys2Proof.Machine
end

