-- ==== Sys2Proof/Machine/Operands.lean ====
section
/-! DEFINITION. Operand forms: byte and word fields, the byte lanes of the bus windows (20_memory.md R87 to R92) and the
address map (20_memory.md R80, R82; 10_state.md R32). -/

namespace Sys2Proof.Machine

/-- `c[7:0]`, the byte of the CRC that goes first on the wire (20_memory.md R91). -/
def loByte (c : Half) : Byte := c.extractLsb' 0 8

/-- `c[15:8]`, the byte of the CRC that goes second on the wire (20_memory.md R91). -/
def hiByte (c : Half) : Byte := c.extractLsb' 8 8

/-- `v[15:0]` of a bus word. -/
def loHalf (w : Word) : Half := w.extractLsb' 0 16

/-- Byte lane `k` of a bus word: bits `[8k+7:8k]` (R90). -/
def lane (w : Word) (k : Nat) : Byte := w.extractLsb' (8 * k) 8

/-- The bus word at byte index `j` of a byte window: the byte at `j` in bits [7:0] (R87, R89, R90). -/
def lanes (byte : Nat → Byte) (j : Nat) : Word := byte (j + 3) ++ byte (j + 2) ++ byte (j + 1) ++ byte j

/-- Byte `i` of a byte sequence; an index past its end is never one a rule reads, and the FRAME window shows 0 there
(R89). -/
def byteAt (l : List Byte) (i : Nat) : Byte := l.getD i 0

/-- The fourteen registers (10_state.md R32). -/
inductive Reg where
  | paramDbuf | paramFd | cmd | ceStatus | ceCrc | ceOffset | ceLength
  | intEn | fdCtrl | fdSilence | fdStatus | fdAsmlen | fdHead | intStatus
  deriving DecidableEq, Repr

/-- A register's bus address (10_state.md R32). -/
def regAddr : Reg → BusAddr
  | .paramDbuf => 0x00000
  | .paramFd => 0x00004
  | .cmd => 0x00008
  | .ceStatus => 0x0000C
  | .ceCrc => 0x00010
  | .ceOffset => 0x00014
  | .ceLength => 0x00018
  | .intEn => 0x0001C
  | .fdCtrl => 0x00020
  | .fdSilence => 0x00024
  | .fdStatus => 0x00028
  | .fdAsmlen => 0x0002C
  | .fdHead => 0x00030
  | .intStatus => 0x00034

/-- The registers in address order. -/
def allRegs : List Reg :=
  [.paramDbuf, .paramFd, .cmd, .ceStatus, .ceCrc, .ceOffset, .ceLength, .intEn, .fdCtrl, .fdSilence, .fdStatus,
   .fdAsmlen, .fdHead, .intStatus]

/-- The register at a word address, if there is one. -/
def regAt (a : BusAddr) : Option Reg := allRegs.find? (fun r => regAddr r == a)

/-- What an address selects (20_memory.md R80). -/
inductive Target where
  | reg (r : Reg)
  /-- The FRAME window, at byte index `j` of the head frame (R89). -/
  | frame (j : Nat)
  /-- The DBUF window, at byte index `j` (R87); past DBUF_BYTES it is as unmapped. -/
  | dbuf (j : Nat)
  | unmapped
  deriving DecidableEq, Repr

/-- `bus_addr AND 0x1FFFC` (R82). -/
def wordAddr (a : BusAddr) : BusAddr := a &&& 0x1FFFC

/-- Address decoding (R80, R82): total, `bus_addr[1:0]` ignored. -/
def addrTarget (a : BusAddr) : Target :=
  match regAt (wordAddr a) with
  | some r => .reg r
  | none =>
    let w := (wordAddr a).toNat
    if 0x04000 ≤ w ∧ w ≤ 0x07FFF then .frame (w - 0x04000)
    else if 0x10000 ≤ w then .dbuf (w - 0x10000)
    else .unmapped

/-- The offset operand of an operation in flight: CE_VALIDATE's always starts at index 0 (40_crc_engine.md R147). -/
def CeKind.start : CeKind → Nat
  | .crc16 off _ => off.toNat
  | .validate _ => 0

/-- How many bytes the hidden cursor of an operation may pass: DBUF is not read by a CE_VALIDATE of fewer than 6 bytes
(10_state.md R57, 40_crc_engine.md R147; log entry 5). -/
def CeKind.walk : CeKind → Nat
  | .crc16 _ len => len.toNat
  | .validate len => if len.toNat < 6 then 0 else len.toNat

end Sys2Proof.Machine
end

