-- ==== Sys2Proof/Machine/Flags.lean ====
section
/-! DEFINITION. Status words, derived flags and the interrupt output (10_state.md R36 to R50, R58, R59; 60_exceptions.md
R206, R208). -/

namespace Sys2Proof.Machine

/-- A flag in bit `n` of a bus word. -/
def bitAt (b : Bool) (n : Nat) : Word := (BitVec.ofBool b).setWidth 32 <<< n

/-- VREASON's code (10_state.md R42). -/
def VReason.code : VReason → BitVec 3
  | .none => 0
  | .ok => 1
  | .short => 2
  | .unitId => 3
  | .crc => 4

/-- A frame cause's code (10_state.md R56). -/
def Cause.code : Cause → BitVec 2
  | .valid => 0
  | .silence => 1
  | .overflow => 2

/-- BUSY (10_state.md R40): 1 exactly when an operation is in flight. -/
def Ce.busy (c : Ce) : Bool := c.op.isSome

/-- VALID (10_state.md R42): VREASON is OK. -/
def Ce.valid (c : Ce) : Bool := c.vreason == .ok

/-- CE_STATUS (10_state.md R39). -/
def Ce.statusWord (c : Ce) : Word :=
  bitAt c.busy 0 ||| bitAt c.done 1 ||| bitAt c.valid 2 ||| c.vreason.code.setWidth 32 <<< 4 |||
  bitAt c.errIllegal 8 ||| bitAt c.errBusy 9 ||| bitAt c.errRange 10

/-- QNE: the queue holds a frame (10_state.md R47). -/
def Fd.qne (f : Fd) : Bool := decide (0 < f.queue.length)

/-- QFULL (10_state.md R47). -/
def Fd.qfull (p : Params) (f : Fd) : Bool := decide (f.queue.length = p.qd)

/-- FD_STATUS (10_state.md R47). -/
def Fd.statusWord (p : Params) (f : Fd) : Word :=
  bitAt f.qne 0 ||| bitAt (f.qfull p) 1 ||| bitAt (decide (0 < f.asm.length)) 2 ||| bitAt f.asmOvf 3 |||
  bitAt f.errOvf 8 ||| bitAt f.errQovr 9 ||| (BitVec.ofNat 8 f.queue.length).setWidth 32 <<< 16

/-- FD_HEAD (10_state.md R49). -/
def Fd.headWord (f : Fd) : Word :=
  match f.queue with
  | [] => 0
  | h :: _ => (BitVec.ofNat 16 h.bytes.length).setWidth 32 ||| h.cause.code.setWidth 32 <<< 16 ||| bitAt true 31

/-- Byte `k` of the FRAME window: the head frame's, 0 past its length or while the queue is empty (20_memory.md R89). -/
def Fd.headByte (f : Fd) (k : Nat) : Byte :=
  match f.queue with
  | [] => 0
  | h :: _ => byteAt h.bytes k

/-- ANYERR: one of the five error flags is set (10_state.md R50). -/
def State.anyErr (s : State) : Bool :=
  s.ce.errIllegal || s.ce.errBusy || s.ce.errRange || s.fd.errOvf || s.fd.errQovr

/-- The output `irq` (10_state.md R59, 60_exceptions.md R208). -/
def State.irq (s : State) : Bool :=
  (s.intEn.getLsbD 0 && s.ce.done) || (s.intEn.getLsbD 1 && s.anyErr) || (s.intEn.getLsbD 2 && s.fd.qne)

/-- INT_STATUS (10_state.md R50). -/
def State.intStatusWord (s : State) : Word :=
  bitAt s.ce.done 0 ||| bitAt s.anyErr 1 ||| bitAt s.fd.qne 2 ||| bitAt s.irq 31

/-- PARAM_DBUF (10_state.md R36). -/
def Params.dbufWord (p : Params) : Word := BitVec.ofNat 32 p.dbufBytes

/-- PARAM_FD (10_state.md R37): IFVER 1, QD, FB. -/
def Params.fdWord (p : Params) : Word := (0x01#8) ++ BitVec.ofNat 8 p.qd ++ BitVec.ofNat 16 p.fb

/-- An error flag's value (60_exceptions.md R206). -/
def State.err (s : State) : Err → Bool
  | .illegal => s.ce.errIllegal
  | .busy => s.ce.errBusy
  | .range => s.ce.errRange
  | .ovf => s.fd.errOvf
  | .qovr => s.fd.errQovr

end Sys2Proof.Machine
end

