-- ==== Sys2Proof/Machine/Ops.lean ====
section
/-! DEFINITION. Named operations over the state: raising an error and clearing it (60_exceptions.md R200 to R205), DBUF
(20_memory.md R87), refusal while BUSY (20_memory.md R88, 30_encoding.md R118), starting a block operation
(40_crc_engine.md R142, R147), emptying the assembling buffer, and reset (70_reset_and_hazards.md R230). -/

namespace Sys2Proof.Machine

/-- What a meaning and a step answer. -/
abbrev Result := Host.Outcome State Fault Refusal

/-- The CE's part of raising an error. -/
def Ce.raise (e : Err) (c : Ce) : Ce :=
  match e with
  | .illegal => { c with errIllegal := true }
  | .busy => { c with errBusy := true }
  | .range => { c with errRange := true }
  | .ovf => c
  | .qovr => c

/-- The FD's part of raising an error. -/
def Fd.raise (e : Err) (f : Fd) : Fd :=
  match e with
  | .illegal => f
  | .busy => f
  | .range => f
  | .ovf => { f with errOvf := true }
  | .qovr => { f with errQovr := true }

/-- `raise Err(NAME)`: set the sticky flag, and nothing else (00_scope.md R13, 60_exceptions.md R200). This is all the
block does where a processor would trap: nothing is saved, no mode changes (R210). -/
def State.raise (e : Err) (s : State) : State := { s with ce := s.ce.raise e, fd := s.fd.raise e }

/-- A write of `w` to CE_STATUS: W1C of bits 1, 8, 9, 10, every other bit ignored (10_state.md R39, 60_exceptions.md
R205). -/
def Ce.clearFlags (w : Word) (c : Ce) : Ce :=
  { c with
    done := c.done && !w.getLsbD 1
    errIllegal := c.errIllegal && !w.getLsbD 8
    errBusy := c.errBusy && !w.getLsbD 9
    errRange := c.errRange && !w.getLsbD 10 }

/-- A write of `w` to FD_STATUS: W1C of bits 8 and 9 (10_state.md R47, 60_exceptions.md R205). -/
def Fd.clearFlags (w : Word) (f : Fd) : Fd :=
  { f with errOvf := f.errOvf && !w.getLsbD 8, errQovr := f.errQovr && !w.getLsbD 9 }

/-- Replace the CE's state. -/
def State.withCe (c : Ce) (s : State) : State := { s with ce := c }

/-- Replace the FD's state. -/
def State.withFd (f : Fd) (s : State) : State := { s with fd := f }

/-- A DBUF byte as the bus or an operation reads it: an unwritten one has an unspecified, stable value (10_state.md R51,
93 I2). -/
def memByte (m : Memory) (epoch i : Nat) : Byte := (m.read? i).getD (Config.unwrittenDbuf epoch i)

/-- `DBUF[i]` (00_scope.md R13). -/
def Ce.dbufByte (c : Ce) (i : Nat) : Byte := memByte c.dbuf c.epoch i

/-- Store a bus word's four byte lanes at byte index `j` (20_memory.md R87). -/
def storeLanes (m : Memory) (j : Nat) (w : Word) : Memory :=
  (((m.write j (lane w 0)).write (j + 1) (lane w 1)).write (j + 2) (lane w 2)).write (j + 3) (lane w 3)

/-- While BUSY, refuse: set ERR_BUSY and change nothing else; otherwise the given outcome (20_memory.md R88,
30_encoding.md R118, 60_exceptions.md R202). -/
def unlessBusy (s accepted : State) : State := if s.ce.busy then s.raise .busy else accepted

/-- Put a block operation in flight, its operands and DBUF as they stand at this edge (40_crc_engine.md R142, R147;
10_state.md R57). The number of edges it takes is free (R149; log entry 4). -/
def startOp (k : CeKind) (s : State) : State :=
  s.withCe { s.ce with
    op := some { kind := k, snap := s.ce.dbuf, cursor := 0, work := 0xFFFF, wait := Config.ceExtraLatency s.edges } }

/-- Empty the assembling buffer (10_state.md R52, R53; 41_frame_detector.md R172, R176). -/
def Fd.dropAsm (f : Fd) : Fd := { f with asm := [], asmOvf := false, silCnt := 0 }

/-- The effect of a rising edge with `rst` = 1 on the block (70_reset_and_hazards.md R230). DBUF's bytes are left
unspecified, named by this edge's number (log entry 6). -/
def State.resetBlock (s : State) : State :=
  { s with ce := Ce.reset s.edges, fd := Fd.reset s.params, intEn := 0 }

end Sys2Proof.Machine
end

