-- ==== Sys2Proof/Machine/CeCmd.lean ====
section
/-! DEFINITION. The CE commands (40_crc_engine.md R136 to R147): what the write of a legal word to CMD does at its edge.
The decoder has already checked legality; BUSY is checked next, then the range (30_encoding.md R119). -/

namespace Sys2Proof.Machine

/-- CE_INIT (R137). -/
def execCeInit (s : State) : Result :=
  .next (unlessBusy s (s.withCe { s.ce with crc := 0xFFFF }))

/-- CE_UPDATE `b` (R139). -/
def execCeUpdate (b : Byte) (s : State) : Result :=
  .next (unlessBusy s (s.withCe { s.ce with crc := crcStep s.ce.crc b }))

/-- CE_CRC16, acceptance (R142): the sum of the operands is exact. -/
def execCeCrc16 (s : State) : Result :=
  .next (unlessBusy s (
    if s.params.dbufBytes < s.ce.offset.toNat + s.ce.length.toNat then s.raise .range
    else startOp (.crc16 s.ce.offset s.ce.length) s))

/-- CE_VALIDATE, acceptance (R147): CE_OFFSET is not used. -/
def execCeValidate (s : State) : Result :=
  .next (unlessBusy s (
    if s.params.dbufBytes < s.ce.length.toNat then s.raise .range
    else startOp (.validate s.ce.length) s))

end Sys2Proof.Machine
end

