-- ==== Sys2Proof/Machine/FdCmd.lean ====
section
/-! DEFINITION. The FD commands (41_frame_detector.md R175 to R177): never gated by BUSY. -/

namespace Sys2Proof.Machine

/-- FD_POP (R175): nothing happens on an empty queue. -/
def execFdPop (s : State) : Result := .next (s.withFd { s.fd with queue := s.fd.queue.tail })

/-- FD_FLUSH (R176). -/
def execFdFlush (s : State) : Result := .next (s.withFd s.fd.dropAsm)

/-- FD_QCLEAR (R177). -/
def execFdQclear (s : State) : Result := .next (s.withFd { s.fd with queue := [] })

end Sys2Proof.Machine
end

