-- ==== Sys2Proof/Machine/NopCmd.lean ====
section
/-! DEFINITION. The command of no agent. -/

namespace Sys2Proof.Machine

/-- NOP (30_encoding.md R120): no state changes, never gated. -/
def execNop (s : State) : Result := .next s

end Sys2Proof.Machine
end

