-- ==== Sys2Proof/Machine/Dispatch.lean ====
section
/-! DEFINITION. The meaning of each command: one arm per constructor of Instr. -/

namespace Sys2Proof.Machine

def exec (i : Instr) (s : State) : Host.Outcome State Fault Refusal :=
  match i with
  | .nop => Sys2Proof.Machine.execNop s
  | .ceInit => Sys2Proof.Machine.execCeInit s
  | .ceUpdate b => Sys2Proof.Machine.execCeUpdate b s
  | .ceCrc16 => Sys2Proof.Machine.execCeCrc16 s
  | .ceValidate => Sys2Proof.Machine.execCeValidate s
  | .fdPop => Sys2Proof.Machine.execFdPop s
  | .fdFlush => Sys2Proof.Machine.execFdFlush s
  | .fdQclear => Sys2Proof.Machine.execFdQclear s

end Sys2Proof.Machine
end

