-- ==== Sys2Proof/Machine/Bus.lean ====
section
/-! DEFINITION. The host bus: reads (20_memory.md R83, R86, R87, R89) and writes, the command port among them (R85, R87,
R88; 30_encoding.md R110, R114, R115). -/

namespace Sys2Proof.Machine

/-- A register's read value (10_state.md R33 to R50); reserved bits read 0 (R32), CMD reads 0 (R38). -/
def readReg (s : State) : Reg → Word
  | .paramDbuf => s.params.dbufWord
  | .paramFd => s.params.fdWord
  | .cmd => 0
  | .ceStatus => s.ce.statusWord
  | .ceCrc => s.ce.crc.setWidth 32
  | .ceOffset => s.ce.offset.setWidth 32
  | .ceLength => s.ce.length.setWidth 32
  | .intEn => s.intEn.setWidth 32
  | .fdCtrl => bitAt s.fd.en 0
  | .fdSilence => s.fd.silence
  | .fdStatus => s.fd.statusWord s.params
  | .fdAsmlen => (BitVec.ofNat 16 s.fd.asm.length).setWidth 32
  | .fdHead => s.fd.headWord
  | .intStatus => s.intStatusWord

/-- `BusRead(a)`: total and without side effect (R83, R86). -/
def busRead (s : State) (a : BusAddr) : Word :=
  match addrTarget a with
  | .reg r => readReg s r
  | .frame j => lanes s.fd.headByte j
  | .dbuf j => if j < s.params.dbufBytes then lanes s.ce.dbufByte j else 0
  | .unmapped => 0

/-- A write to CMD issues the command word (30_encoding.md R110): an illegal word only raises ERR_ILLEGAL (R115). -/
def issue (w : Word) (s : State) : Result :=
  match decode w with
  | .illegal _ => .next (s.raise .illegal)
  | .legal i => exec i s

/-- A write to a register (R85): RO registers ignore it (R83), RW registers take their defined bits, W1C bits clear, and
CE_CRC, CE_OFFSET and CE_LENGTH refuse it while BUSY (R88). -/
def writeReg (w : Word) (s : State) : Reg → Result
  | .paramDbuf => .next s
  | .paramFd => .next s
  | .cmd => issue w s
  | .ceStatus => .next (s.withCe (s.ce.clearFlags w))
  | .ceCrc => .next (unlessBusy s (s.withCe { s.ce with crc := loHalf w }))
  | .ceOffset => .next (unlessBusy s (s.withCe { s.ce with offset := loHalf w }))
  | .ceLength => .next (unlessBusy s (s.withCe { s.ce with length := loHalf w }))
  | .intEn => .next { s with intEn := w.extractLsb' 0 3 }
  | .fdCtrl => .next (s.withFd { s.fd with en := w.getLsbD 0 })
  | .fdSilence => .next (s.withFd { s.fd with silence := w })
  | .fdStatus => .next (s.withFd (s.fd.clearFlags w))
  | .fdAsmlen => .next s
  | .fdHead => .next s
  | .intStatus => .next s

/-- A write to the DBUF window at byte index `j` (R87): past DBUF_BYTES ignored, while BUSY refused. -/
def writeDbuf (j : Nat) (w : Word) (s : State) : State :=
  if s.params.dbufBytes ≤ j then s
  else unlessBusy s (s.withCe { s.ce with dbuf := storeLanes s.ce.dbuf j w })

/-- `BusWrite(a, v)` (R85): the FRAME window and unmapped addresses ignore it (R83, R89). -/
def busWrite (a : BusAddr) (w : Word) (s : State) : Result :=
  match addrTarget a with
  | .reg r => writeReg w s r
  | .frame _ => .next s
  | .dbuf j => .next (writeDbuf j w s)
  | .unmapped => .next s

end Sys2Proof.Machine
end

