-- ==== Sys2Proof/Machine/Detector.lean ====
section
/-! DEFINITION. The Frame Boundary Detector's step: step 4 of 10_state.md R62 (41_frame_detector.md R160 to R172). It is a
function of the FD's own state, the build's parameters and the cycle's inputs alone (R161). -/

namespace Sys2Proof.Machine

/-- `Emit(cause)` (R172). -/
def Fd.emit (p : Params) (cause : Cause) (f : Fd) : Fd :=
  if f.queue.length < p.qd then Fd.dropAsm { f with queue := f.queue ++ [⟨f.asm, cause⟩] }
  else Fd.dropAsm (f.raise .qovr)

/-- A byte arrives while EN = 1 (R165 to R167). -/
def Fd.receive (p : Params) (b : Byte) (f : Fd) : Fd :=
  if f.asm.length < p.fb then
    let f' := { f with silCnt := 0, asm := f.asm ++ [b] }
    if isValidFrame f'.asm then f'.emit p .valid else f'
  else Fd.raise .ovf { f with silCnt := 0, asmOvf := true }

/-- The timeout test of R170 (R171: never with FD_SILENCE = 0). -/
def Fd.timeout (f : Fd) : Bool := f.silence != 0 && decide (f.silence.toNat ≤ f.silCnt.toNat + 1)

/-- `min(sil_cnt + 1, 2^32 - 1)` (R160). -/
def satIncr (c : Word) : Word := BitVec.ofNat 32 (min (c.toNat + 1) (2 ^ 32 - 1))

/-- A silent cycle while EN = 1 (R168, R170). -/
def Fd.silent (p : Params) (f : Fd) : Fd :=
  if f.asm.isEmpty then { f with silCnt := 0 }
  else if f.timeout then f.emit p (if f.asmOvf then .overflow else .silence)
  else { f with silCnt := satIncr f.silCnt }

/-- `FD_step(rx_valid, rx_data, rx_active)` (R160). -/
def Fd.step (p : Params) (e : EdgeInput) (f : Fd) : Fd :=
  if f.en = false then f.dropAsm
  else if e.rxValid then f.receive p e.rxData
  else if e.rxActive then { f with silCnt := 0 }
  else f.silent p

end Sys2Proof.Machine
end

