-- ==== Sys2Proof/Machine/Engine.lean ====
section
/-! DEFINITION. The CRC Engine's own progress: step 3 of 10_state.md R62 (40_crc_engine.md R143, R148, R149). -/

namespace Sys2Proof.Machine

/-- Move the hidden cursor by at most `n` bytes, stepping the hidden accumulator (10_state.md R57; log entry 5). -/
def InFlight.advance (epoch : Nat) : Nat → InFlight → InFlight
  | 0, op => op
  | n + 1, op =>
    if op.cursor < op.kind.walk then
      InFlight.advance epoch n
        { op with
          cursor := op.cursor + 1
          work := crcStep op.work (memByte op.snap epoch (op.kind.start + op.cursor)) }
    else op

/-- Completion of the operation in flight (40_crc_engine.md R143, R148): the result is a function of `snap`. -/
def Ce.complete (op : InFlight) (c : Ce) : Ce :=
  match op.kind with
  | .crc16 off len =>
    { c with crc := crc16 (memByte op.snap c.epoch) len.toNat off.toNat, op := none, done := true }
  | .validate len =>
    { c with vreason := checkFrame (memByte op.snap c.epoch) len.toNat, op := none, done := true }

/-- One edge of an operation in flight: it completes when it has no edge left to wait, else it stays in flight
(40_crc_engine.md R149). -/
def Ce.progress (stride : Nat) (c : Ce) : Ce :=
  match c.op with
  | none => c
  | some op =>
    match op.wait with
    | 0 => c.complete op
    | w + 1 => { c with op := some { InFlight.advance c.epoch stride op with wait := w } }

end Sys2Proof.Machine
end

