-- ==== Sys2Proof/Machine/Edge.lean ====
section
/-! DEFINITION. One rising edge: the inputs of its cycle and the four steps of 10_state.md R62. -/

namespace Sys2Proof.Machine

/-- A cycle with no bus access, `rx_valid` = 0 and `rx_active` = 0 (30_encoding.md R122). -/
def idleCycle : EdgeInput := { rst := false, bus := .idle, rxValid := false, rxData := 0, rxActive := false }

/-- A cycle with one bus access and an idle serial line (30_encoding.md R122). -/
def busCycle (b : BusAccess) : EdgeInput := { idleCycle with bus := b }

/-- The inputs of the cycle a script entry stands for: `WAITDONE` reads CE_STATUS (30_encoding.md R123). -/
def HostStep.input : HostStep → EdgeInput
  | .cycle e => e
  | .waitDone => busCycle (.read (regAddr .ceStatus))

/-- The inputs of the next cycle; past the end of its script the host is idle (log entry 1). -/
def State.nextInput (s : State) : EdgeInput :=
  match s.script with
  | [] => idleCycle
  | h :: _ => h.input

/-- The script after the next cycle: `WAITDONE` stays while the CE_STATUS it reads has BUSY = 1 (30_encoding.md R123). -/
def State.nextScript (s : State) : List HostStep :=
  match s.script with
  | [] => []
  | .cycle _ :: rest => rest
  | .waitDone :: rest => if s.ce.busy then .waitDone :: rest else rest

/-- `bus_rdata` in a cycle: the state before the edge (20_memory.md R86). -/
def State.readData (s : State) : BusAccess → Option Word
  | .idle => none
  | .read a => some (busRead s a)
  | .write _ _ => none

/-- What the edge does outside the block: the script moves on, the value read is kept, the edge is counted. -/
def State.beginEdge (s : State) : State :=
  { s with script := s.nextScript, busRdata := s.readData s.nextInput.bus, edges := s.edges + 1 }

/-- Step 2: the bus write of this cycle, if any (10_state.md R62, 20_memory.md R85). -/
def busPhase (b : BusAccess) (s : State) : Result :=
  match b with
  | .idle => .next s
  | .read _ => .next s
  | .write a w => busWrite a w s

/-- Step 3: progress of an operation already in flight before this edge (10_state.md R62). -/
def cePhase (inFlightBefore : Bool) (s : State) : State :=
  if inFlightBefore then s.withCe (s.ce.progress (Config.ceStride s.edges)) else s

/-- Step 4: the FD (10_state.md R62). -/
def fdPhase (e : EdgeInput) (s : State) : State := s.withFd (s.fd.step s.params e)

/-- Steps 1 to 4 of 10_state.md R62. -/
def runEdge (e : EdgeInput) (s : State) : Result :=
  if e.rst then .next s.resetBlock
  else
    match busPhase e.bus s with
    | .next t => .next (fdPhase e (cePhase s.ce.busy t))
    | .fault r => .fault r
    | .refused r => .refused r

/-- The next rising edge. -/
def edge (s : State) : Result := runEdge s.nextInput s.beginEdge

/-- A cycle that writes the command word `w` to CMD (30_encoding.md R110). -/
def cmdCycle (w : Word) : HostStep := .cycle (busCycle (.write (regAddr .cmd) w))

/-- Make the write of a command word to CMD the host's next cycle (log entry 9). -/
def State.withCommand (w : Word) (s : State) : State := { s with script := cmdCycle w :: s.script }

end Sys2Proof.Machine
end

