-- ==== Sys2Proof/Machine/Step.lean ====
section
/-! DEFINITION. One step of the machine: one rising edge of `clk` (00_scope.md R14). -/

namespace Sys2Proof.Machine

/-- One rising edge. -/
def step (s : State) : Host.Outcome State Fault Refusal := edge s

/-- `s` with the instruction of `nbits` bits `w` as the command the host writes in its next cycle: the block fetches
nothing, a command runs when its word is written to CMD (30_encoding.md R110; log entry 9). -/
def State.withFetchWord (s : State) (nbits w : Nat) : State := s.withCommand (tableWord nbits w)

end Sys2Proof.Machine
end

