-- ==== Sys2Proof/Machine/Script.lean ====
section
/-! DEFINITION. The host syntax of 30_encoding.md R121 to R125: statements, their expansion into cycles, programs. -/

namespace Sys2Proof.Machine

/-- A statement of a host script (R121 to R123). -/
inductive Stmt where
  /-- `WR <addr>, <value>`. -/
  | wr (a : BusAddr) (v : Word)
  /-- `RD <addr> -> <expect>`. -/
  | rd (a : BusAddr) (expect : Word)
  /-- `IDLE <n>`. -/
  | idle (n : Nat)
  /-- `RX <byte>`. -/
  | rx (b : Byte)
  /-- `WR <addr>, <value> || RX <byte>`: a write and an `RX` in one cycle. -/
  | wrRx (a : BusAddr) (v : Word) (b : Byte)
  /-- `RD <addr> -> <expect> || RX <byte>`. R122 lets a bus statement and an `RX` share a cycle and spells only the form
  with `WR`; that an `RD` may share one too, with its expectation, is a DESIGN CHOICE of the model (log entry 19). -/
  | rdRx (a : BusAddr) (expect : Word) (b : Byte)
  /-- `CMD <mnemonic>` (R121). -/
  | cmd (i : Instr)
  /-- `LOADDBUF <j>: b0 b1 ...`. -/
  | loadDbuf (j : Nat) (bytes : List Byte)
  /-- `WAITDONE`. -/
  | waitDone
  /-- `RXSTREAM b0 ... gap g`. -/
  | rxStream (bytes : List Byte) (gap : Nat)
  /-- `CLRERR`. -/
  | clrErr
  deriving DecidableEq, Repr

/-- LOADDBUF takes an index that is a multiple of 4 and words inside the DBUF window (R123, 20_memory.md R80; log entry
18). That an `IDLE 0`, and an `RXSTREAM` or a `LOADDBUF` of no bytes, is well formed, though R122 gives every statement one
or more cycles and R123 writes the bytes from b0 on, is a DESIGN CHOICE of the model (log entry 20). -/
def Stmt.wellFormed : Stmt → Bool
  | .loadDbuf j bytes => j % 4 == 0 && decide (j + bytes.length ≤ 65536)
  | _ => true

/-- A cycle that receives a byte (R122). -/
def rxCycle (b : Byte) : EdgeInput := { idleCycle with rxValid := true, rxData := b }

/-- The bus words of a byte sequence, the last padded with 0x00 (R123). -/
def packWords : List Byte → List Word
  | [] => []
  | [a] => [(0#8) ++ (0#8) ++ (0#8) ++ a]
  | [a, b] => [(0#8) ++ (0#8) ++ b ++ a]
  | [a, b, c] => [(0#8) ++ c ++ b ++ a]
  | a :: b :: c :: d :: rest => (d ++ c ++ b ++ a) :: packWords rest

/-- Writes of consecutive words from a bus address on (R123). -/
def writeWords : BusAddr → List Word → List HostStep
  | _, [] => []
  | a, w :: rest => .cycle (busCycle (.write a w)) :: writeWords (a + 4) rest

/-- `RX b0; IDLE g; RX b1; ...` with no IDLE after the last byte (R123); of no bytes, no cycle (DESIGN CHOICE, log
entry 20). -/
def streamCycles (gap : Nat) : List Byte → List HostStep
  | [] => []
  | [b] => [.cycle (rxCycle b)]
  | b :: rest => .cycle (rxCycle b) :: (List.replicate gap (.cycle idleCycle) ++ streamCycles gap rest)

/-- The cycles of a statement (R121 to R123). `IDLE 0`, and an `RXSTREAM` or a `LOADDBUF` of no bytes, take no cycle, where
R122 gives a statement one or more: a DESIGN CHOICE of the model (log entry 20). -/
def Stmt.expand : Stmt → List HostStep
  | .wr a v => [.cycle (busCycle (.write a v))]
  | .rd a _ => [.cycle (busCycle (.read a))]
  | .idle n => List.replicate n (.cycle idleCycle)
  | .rx b => [.cycle (rxCycle b)]
  | .wrRx a v b => [.cycle { rxCycle b with bus := .write a v }]
  | .rdRx a _ b => [.cycle { rxCycle b with bus := .read a }]
  | .cmd i => [cmdCycle (encode i)]
  | .loadDbuf j bytes => writeWords (0x10000 + BitVec.ofNat 17 j) (packWords bytes)
  | .waitDone => [.waitDone]
  | .rxStream bytes gap => streamCycles gap bytes
  | .clrErr =>
    [.cycle (busCycle (.write (regAddr .ceStatus) 0x00000702)),
     .cycle (busCycle (.write (regAddr .fdStatus) 0x00000300))]

/-- What an `RD` statement, alone or with an `RX`, claims of the state it reads (R122; log entries 18 and 19): the value the
rules give is the expected one. -/
def Stmt.expectMet (s : State) : Stmt → Bool
  | .rd a expect => busRead s a == expect
  | .rdRx a expect _ => busRead s a == expect
  | _ => true

/-- A program: the host runs these statements from this state on (R125; log entry 9). -/
def State.withProgram (prog : List Stmt) (s : State) : State :=
  { s with script := prog.flatMap Stmt.expand ++ s.script }

end Sys2Proof.Machine
end

