-- ==== Sys2Proof/Safety.lean ====
section
/-! DEFINITION. What holds of every state the block reaches, and the words the claims use for runs. -/

namespace Sys2Proof.Machine

/-- An operation in flight is coherent: its operands lie in DBUF (40_crc_engine.md R142, R147), its snapshot is DBUF
(10_state.md R57), and the hidden accumulator is the CRC of the bytes the hidden cursor has passed. -/
structure InFlight.Coherent (p : Params) (c : Ce) (op : InFlight) : Prop where
  snapIsDbuf : op.snap = c.dbuf
  inRange : match op.kind with
    | .crc16 off len => off.toNat + len.toNat ≤ p.dbufBytes
    | .validate len => len.toNat ≤ p.dbufBytes
  cursorInRange : op.cursor ≤ op.kind.walk
  workIsRunningCrc : op.work = crc16 (memByte op.snap c.epoch) op.cursor op.kind.start

/-- The CRC Engine's invariant. -/
structure Ce.Inv (p : Params) (c : Ce) : Prop where
  dbufCanonical : c.dbuf.wf
  dbufInRange : c.dbuf.below p.dbufBytes
  opCoherent : ∀ op, c.op = some op → op.Coherent p c

/-- No beginning of a byte sequence, itself included, is a valid frame. -/
def NoValidPrefix (l : List Byte) : Prop := ∀ k, k ≤ l.length → isValidFrame (l.take k) = false

/-- A queued frame is coherent (10_state.md R56, 41_frame_detector.md R179): 1..FB bytes; cause VALID exactly when its
bytes are a valid frame; OVERFLOW only on a full buffer; and no proper beginning of it is a valid frame. -/
structure Frame.Coherent (p : Params) (f : Frame) : Prop where
  notEmpty : 1 ≤ f.bytes.length
  fits : f.bytes.length ≤ p.fb
  validIff : f.cause = .valid ↔ isValidFrame f.bytes = true
  overflowFull : f.cause = .overflow → f.bytes.length = p.fb
  noValidStart : ∀ k, k < f.bytes.length → isValidFrame (f.bytes.take k) = false

/-- The Frame Boundary Detector's invariant (10_state.md R52 to R56; 41_frame_detector.md R163, R168, R170). -/
structure Fd.Inv (p : Params) (f : Fd) : Prop where
  asmFits : f.asm.length ≤ p.fb
  overflowFull : f.asmOvf = true → f.asm.length = p.fb
  emptyNotCounting : f.asm = [] → f.silCnt = 0
  disabledEmpty : f.en = false → f.asm = []
  belowTimeout : f.silence ≠ 0 → f.silCnt.toNat < f.silence.toNat
  asmNotValid : NoValidPrefix f.asm
  queueFits : f.queue.length ≤ p.qd
  framesCoherent : ∀ r ∈ f.queue, r.Coherent p

/-- The invariant of the whole state. -/
structure State.Inv (s : State) : Prop where
  paramsLegal : s.params.legal = true
  ceInv : s.ce.Inv s.params
  fdInv : s.fd.Inv s.params
  resetInPast : s.ce.epoch ≤ s.edges

/-- No cycle still to come has `rst` = 1. -/
def NoReset (script : List HostStep) : Prop := ∀ e, HostStep.cycle e ∈ script → e.rst = false

/-- `k` rising edges from `s` lead to `t`. -/
def Reaches (k : Nat) (s t : State) : Prop := Sys2Proof.core.run k s = .next t

/-- A bus access that leaves the FD alone in its step 2: no access, a read, or a write to no FD register and of no FD
command (10_state.md R45 to R47; 41_frame_detector.md R175 to R178). -/
def BusAccess.leavesFd : BusAccess → Bool
  | .idle => true
  | .read _ => true
  | .write a w =>
    !([.reg .fdCtrl, .reg .fdSilence, .reg .fdStatus].contains (addrTarget a)) &&
    !(addrTarget a == .reg .cmd && [.legal .fdPop, .legal .fdFlush, .legal .fdQclear].contains (decode w))

/-- The receiver delivers no byte and reports no character in progress: the cycle is silent if EN = 1
(41_frame_detector.md R168). -/
def EdgeInput.rxSilent (e : EdgeInput) : Bool := !e.rxValid && !e.rxActive

/-- The cycles of a byte stream: the first byte's, then for each later byte the cycles of the gap before it and its own
(41_frame_detector.md R174). -/
def streamInputs (first : EdgeInput) (more : List (List EdgeInput × EdgeInput)) : List EdgeInput :=
  first :: more.flatMap (fun g => g.1 ++ [g.2])

/-- The bytes of a stream, in order of arrival. -/
def streamBytes (first : EdgeInput) (more : List (List EdgeInput × EdgeInput)) : List Byte :=
  first.rxData :: more.map (fun g => g.2.rxData)

/-- The bytes an operation reads have all been written since reset: the run of 93_implementation_defined.md I2 that uses
no unwritten byte. -/
def ReadsWritten (m : Memory) (off len : Nat) : Prop := ∀ i, i < len → (m.read? (off + i)).isSome = true

/-- The bytes of a CRC in wire order (20_memory.md R91). -/
def wireBytes (c : Half) : List Byte := [loByte c, hiByte c]

/-- A byte sequence with one bit of one byte flipped. -/
def flipBit (l : List Byte) (i bit : Nat) : List Byte := l.set i (byteAt l i ^^^ (1#8 <<< bit))

end Sys2Proof.Machine
end

