-- ==== Sys2Proof/Certificates/Slice0/Obligations.lean ====
section
/-! DEFINITION. The claims about the model, one definition each; OBLIGATIONS.json lists them. -/

open Sys2Proof Sys2Proof.Machine

/-! ### Command words -/

/-- Decoding an encoded command gives it back, every operand included, and a word that decodes to a command is that
command's encoding: each word has one meaning (30_encoding.md R111 to R114). -/
def Obligations.DecodeInvertsEncode : Prop :=
  (∀ i : Instr, decode (encode i) = .legal i) ∧ ∀ (w : Word) (i : Instr), decode w = .legal i → encode i = w

/-- R114: the three conditions under which a command word is illegal, and otherwise it names exactly one command. -/
def Obligations.IllegalExactlyByThreeConditions : Prop :=
  ∀ w : Word,
    let opc : BitVec 8 := w.extractLsb' 0 8
    let data : BitVec 8 := w.extractLsb' 8 8
    let rsvd : BitVec 16 := w.extractLsb' 16 16
    let bad := opc ∉ [0x00#8, 0x01, 0x02, 0x03, 0x04, 0x10, 0x11, 0x12] ∨ rsvd ≠ 0 ∨ (data ≠ 0 ∧ opc ≠ 0x02)
    ((∃ e, decode w = .illegal e) ↔ bad) ∧ (¬ bad → ∃! i, decode w = .legal i)

/-- Every legal word lies in exactly one row of the opcode table, the row of the command it decodes to, and every word
of a row decodes to that row's command (R113, opcode_table.json). -/
def Obligations.LegalWordsAreTableRows : Prop :=
  (∀ (w : Word) (i : Instr), decode w = .legal i →
    ∃ r ∈ opcodeTable, r.mnemonic = i.mnemonic ∧ w &&& r.mask = r.pattern ∧
      ∀ q ∈ opcodeTable, w &&& q.mask = q.pattern → q = r) ∧
  ∀ (w : Word) (r : OpcodeRow), r ∈ opcodeTable → w &&& r.mask = r.pattern →
    ∃ i, decode w = .legal i ∧ i.mnemonic = r.mnemonic

/-- Words written out from R111 and R113, and the illegal words of 95_test_vectors.md TD5 to TD14. -/
def Obligations.SampleWordsDecode : Prop :=
  decode 0b00000000000000000000000000000000#32 = .legal .nop ∧
  decode 0b00000000000000000000000000000001#32 = .legal .ceInit ∧
  decode 0b00000000000000000101101000000010#32 = .legal (.ceUpdate 0x5A) ∧
  decode 0b00000000000000000000000000000011#32 = .legal .ceCrc16 ∧
  decode 0b00000000000000000000000000000100#32 = .legal .ceValidate ∧
  decode 0b00000000000000000000000000010000#32 = .legal .fdPop ∧
  decode 0b00000000000000000000000000010001#32 = .legal .fdFlush ∧
  decode 0b00000000000000000000000000010010#32 = .legal .fdQclear ∧
  ∀ w ∈ [0x00000005#32, 0x0000000F, 0x00000013, 0x000000FF, 0x00000100, 0x00005A01, 0x00000110, 0x00010000,
      0x00010002, 0x80000003], ∃ e, decode w = .illegal e

/-- 10_state.md R62 without reset: a cycle's bus access acts first, then the CE makes progress if an operation was in
flight before the edge, then the FD steps on what these left. The script moves on, the value read is kept and the edge is
counted before (the model's own fields, log entries 1 to 3). A write to CMD of a command's word runs that command; an
illegal word raises ERR_ILLEGAL in the command's place. -/
def Obligations.StepRunsTheWrittenCommand : Prop :=
  ∀ (s : State) (e : EdgeInput) (rest : List HostStep), s.script = .cycle e :: rest → e.rst = false →
    let s₀ (read : Option Word) : State := { s with script := rest, busRdata := read, edges := s.edges + 1 }
    let after (m : State) : State :=
      let c := if s.ce.op.isSome then m.ce.progress (Config.ceStride m.edges) else m.ce
      { m with ce := c, fd := m.fd.step m.params e }
    (e.bus = .idle → step s = .next (after (s₀ none))) ∧
    (∀ a, e.bus = .read a → step s = .next (after (s₀ (some (busRead s a))))) ∧
    (∀ a w, e.bus = .write a w → ∀ m, busWrite a w (s₀ none) = .next m → step s = .next (after m)) ∧
    ∀ a w, e.bus = .write a w → a &&& 0x1FFFC = 0x00008 →
      (∀ (i : Instr) (m : State), decode w = .legal i → exec i (s₀ none) = .next m → step s = .next (after m)) ∧
      ∀ err, decode w = .illegal err →
        step s = .next (after { s₀ none with ce := { s.ce with errIllegal := true } })

/-! ### The meaning of each command -/

/-- R120: NOP's word is 0, and it changes nothing, in any state. -/
def Obligations.NopChangesNothing : Prop :=
  decode 0x00000000 = .legal .nop ∧ ∀ s : State, exec .nop s = .next s

/-- R137: CE_INIT sets CE_CRC to 0xFFFF and nothing else; while BUSY it only sets ERR_BUSY; a word with its OPC and
DATA or RSVD not 0 only sets ERR_ILLEGAL. -/
def Obligations.CeInitSetsInitialValue : Prop :=
  decode 0x00000001 = .legal .ceInit ∧
  (∀ s : State, s.ce.op = none → exec .ceInit s = .next { s with ce := { s.ce with crc := 0xFFFF } }) ∧
  (∀ s : State, s.ce.op ≠ none → exec .ceInit s = .next { s with ce := { s.ce with errBusy := true } }) ∧
  ∀ (s : State) (w : Word), w.extractLsb' 0 8 = 0x01#8 → w ≠ 0x00000001 →
    issue w s = .next { s with ce := { s.ce with errIllegal := true } }

/-- R139: CE_UPDATE steps CE_CRC by the byte in DATA and nothing else; while BUSY it only sets ERR_BUSY; a word with its
OPC and RSVD not 0 only sets ERR_ILLEGAL. The rule's two values of the step: a zero byte is a real data byte. -/
def Obligations.CeUpdateStepsTheCrc : Prop :=
  (∀ w : Word, w.extractLsb' 0 8 = 0x02#8 → w.extractLsb' 16 16 = 0#16 →
    decode w = .legal (.ceUpdate (w.extractLsb' 8 8))) ∧
  (∀ (s : State) (b : Byte), s.ce.op = none →
    exec (.ceUpdate b) s = .next { s with ce := { s.ce with crc := crcStep s.ce.crc b } }) ∧
  (∀ (s : State) (b : Byte), s.ce.op ≠ none →
    exec (.ceUpdate b) s = .next { s with ce := { s.ce with errBusy := true } }) ∧
  (∀ (s : State) (w : Word), w.extractLsb' 0 8 = 0x02#8 → w.extractLsb' 16 16 ≠ 0#16 →
    issue w s = .next { s with ce := { s.ce with errIllegal := true } }) ∧
  crcStep 0xFFFF 0x00 = 0x40BF ∧ crcStep 0xFFFF 0x01 = 0x807E

/-- R142: CE_CRC16 puts crc16(off, len, snap = DBUF) in flight and changes nothing else, if off + len, computed without
wrap, does not pass DBUF_BYTES; else only ERR_RANGE; while BUSY only ERR_BUSY, whatever the operands. With len = 0 it
completes with CE_CRC = 0xFFFF. -/
def Obligations.CeCrc16IsAccepted : Prop :=
  decode 0x00000003 = .legal .ceCrc16 ∧
  (∀ s : State, s.ce.op = none → s.ce.offset.toNat + s.ce.length.toNat ≤ s.params.dbufBytes →
    ∃ op : InFlight, op.kind = .crc16 s.ce.offset s.ce.length ∧ op.snap = s.ce.dbuf ∧
      exec .ceCrc16 s = .next { s with ce := { s.ce with op := some op } }) ∧
  (∀ s : State, s.ce.op = none → s.params.dbufBytes < s.ce.offset.toNat + s.ce.length.toNat →
    exec .ceCrc16 s = .next { s with ce := { s.ce with errRange := true } }) ∧
  (∀ s : State, s.ce.op ≠ none → exec .ceCrc16 s = .next { s with ce := { s.ce with errBusy := true } }) ∧
  (∀ (s : State) (w : Word), w.extractLsb' 0 8 = 0x03#8 → w ≠ 0x00000003 →
    issue w s = .next { s with ce := { s.ce with errIllegal := true } }) ∧
  ∀ (c : Ce) (op : InFlight) (off : Half), op.kind = .crc16 off 0 → (c.complete op).crc = 0xFFFF

/-- R147: CE_VALIDATE puts validate(len, snap = DBUF) in flight and changes nothing else, if len does not pass
DBUF_BYTES; else only ERR_RANGE; while BUSY only ERR_BUSY. With len below 6 it completes with VREASON = SHORT, whatever
DBUF holds. -/
def Obligations.CeValidateIsAccepted : Prop :=
  decode 0x00000004 = .legal .ceValidate ∧
  (∀ s : State, s.ce.op = none → s.ce.length.toNat ≤ s.params.dbufBytes →
    ∃ op : InFlight, op.kind = .validate s.ce.length ∧ op.snap = s.ce.dbuf ∧
      exec .ceValidate s = .next { s with ce := { s.ce with op := some op } }) ∧
  (∀ s : State, s.ce.op = none → s.params.dbufBytes < s.ce.length.toNat →
    exec .ceValidate s = .next { s with ce := { s.ce with errRange := true } }) ∧
  (∀ s : State, s.ce.op ≠ none → exec .ceValidate s = .next { s with ce := { s.ce with errBusy := true } }) ∧
  (∀ (s : State) (w : Word), w.extractLsb' 0 8 = 0x04#8 → w ≠ 0x00000004 →
    issue w s = .next { s with ce := { s.ce with errIllegal := true } }) ∧
  ∀ (c : Ce) (op : InFlight) (len : Half), op.kind = .validate len → len.toNat < 6 → (c.complete op).vreason = .short

/-- R175: FD_POP releases the head frame, does nothing on an empty queue, in any state of the CE; a word with its OPC
and DATA or RSVD not 0 only sets ERR_ILLEGAL. -/
def Obligations.FdPopReleasesTheHead : Prop :=
  decode 0x00000010 = .legal .fdPop ∧
  (∀ s : State, s.fd.queue = [] → exec .fdPop s = .next s) ∧
  (∀ (s : State) (h : Frame) (q : List Frame), s.fd.queue = h :: q →
    exec .fdPop s = .next { s with fd := { s.fd with queue := q } }) ∧
  ∀ (s : State) (w : Word), w.extractLsb' 0 8 = 0x10#8 → w ≠ 0x00000010 →
    issue w s = .next { s with ce := { s.ce with errIllegal := true } }

/-- R176: FD_FLUSH empties asm with asm_ovf and sil_cnt, emits nothing and leaves the queue and the sticky flags, in any
state of the CE; a word with its OPC and DATA or RSVD not 0 only sets ERR_ILLEGAL. -/
def Obligations.FdFlushDiscardsTheAssembly : Prop :=
  decode 0x00000011 = .legal .fdFlush ∧
  (∀ s : State, exec .fdFlush s = .next { s with fd := { s.fd with asm := [], asmOvf := false, silCnt := 0 } }) ∧
  ∀ (s : State) (w : Word), w.extractLsb' 0 8 = 0x11#8 → w ≠ 0x00000011 →
    issue w s = .next { s with ce := { s.ce with errIllegal := true } }

/-- R177: FD_QCLEAR empties the queue and changes nothing else, in any state of the CE; a word with its OPC and DATA or
RSVD not 0 only sets ERR_ILLEGAL. -/
def Obligations.FdQclearEmptiesTheQueue : Prop :=
  decode 0x00000012 = .legal .fdQclear ∧
  (∀ s : State, exec .fdQclear s = .next { s with fd := { s.fd with queue := [] } }) ∧
  ∀ (s : State) (w : Word), w.extractLsb' 0 8 = 0x12#8 → w ≠ 0x00000012 →
    issue w s = .next { s with ce := { s.ce with errIllegal := true } }

/-- What no command changes at its own step, and what only some commands change: the build's parameters, INT_EN, the
script, `bus_rdata`, the edge count, CE_OFFSET, CE_LENGTH, DONE, VREASON and every byte of DBUF, by none; CE_CRC only by
CE_INIT and CE_UPDATE; BUSY only by CE_CRC16 and CE_VALIDATE; ERR_BUSY only while BUSY, and then nothing else of the CE;
the CE by no FD command and not by NOP, the FD by no CE command and not by NOP (40_crc_engine.md R136); EN, FD_SILENCE,
ERR_OVF and ERR_QOVR by none; the queue only by FD_POP and FD_QCLEAR, the assembling buffer only by FD_FLUSH; ERR_ILLEGAL
by none. -/
def Obligations.CommandFrame : Prop :=
  ∀ (i : Instr) (s t : State), exec i s = .next t →
    t.params = s.params ∧ t.intEn = s.intEn ∧ t.script = s.script ∧ t.busRdata = s.busRdata ∧ t.edges = s.edges ∧
    t.ce.offset = s.ce.offset ∧ t.ce.length = s.ce.length ∧ t.ce.done = s.ce.done ∧ t.ce.vreason = s.ce.vreason ∧
    t.ce.errIllegal = s.ce.errIllegal ∧ t.ce.epoch = s.ce.epoch ∧
    (∀ a, t.ce.dbufByte a = s.ce.dbufByte a) ∧
    (i ≠ .ceInit → (∀ b, i ≠ .ceUpdate b) → t.ce.crc = s.ce.crc) ∧
    (i ≠ .ceCrc16 → i ≠ .ceValidate → t.ce.op = s.ce.op ∧ t.ce.errRange = s.ce.errRange) ∧
    (s.ce.op = none → t.ce.errBusy = s.ce.errBusy) ∧
    (s.ce.op ≠ none → t.ce = { s.ce with errBusy := t.ce.errBusy }) ∧
    (i ∈ [.nop, .fdPop, .fdFlush, .fdQclear] → t.ce = s.ce) ∧
    (i ∉ [.fdPop, .fdFlush, .fdQclear] → t.fd = s.fd) ∧
    t.fd.en = s.fd.en ∧ t.fd.silence = s.fd.silence ∧ t.fd.errOvf = s.fd.errOvf ∧ t.fd.errQovr = s.fd.errQovr ∧
    (i ≠ .fdPop → i ≠ .fdQclear → t.fd.queue = s.fd.queue) ∧
    (i ≠ .fdFlush → t.fd.asm = s.fd.asm ∧ t.fd.asmOvf = s.fd.asmOvf ∧ t.fd.silCnt = s.fd.silCnt)

/-- R119: the checks of a word written to CMD, in their order; exactly one flag is raised and nothing else changes, or
the command is accepted, performed, and raises none. -/
def Obligations.CommandChecksInOrder : Prop :=
  ∀ (s : State) (w : Word),
    let outOfRange (i : Instr) :=
      (i = .ceCrc16 ∧ s.params.dbufBytes < s.ce.offset.toNat + s.ce.length.toNat) ∨
      (i = .ceValidate ∧ s.params.dbufBytes < s.ce.length.toNat)
    (∀ e, decode w = .illegal e → issue w s = .next { s with ce := { s.ce with errIllegal := true } }) ∧
    ∀ i, decode w = .legal i →
      (i.isCeCommand = true → s.ce.op ≠ none → issue w s = .next { s with ce := { s.ce with errBusy := true } }) ∧
      (¬ (i.isCeCommand = true ∧ s.ce.op ≠ none) → outOfRange i →
        issue w s = .next { s with ce := { s.ce with errRange := true } }) ∧
      (¬ (i.isCeCommand = true ∧ s.ce.op ≠ none) → ¬ outOfRange i →
        ∃ t, issue w s = .next t ∧ exec i s = .next t ∧ ∀ x : Err, t.err x = s.err x)

/-- R200: errors are precise. Where the bus write of a cycle does no more than raise an error, the state after the edge
is the state that follows if the access had not been made, except for the flag. -/
def Obligations.ErrorsArePrecise : Prop :=
  ∀ (s : State) (e : EdgeInput) (rest : List HostStep) (x : Err),
    s.script = .cycle e :: rest → e.rst = false → x ∈ [Err.illegal, .busy, .range] →
    busPhase e.bus s.beginEdge = .next (s.beginEdge.raise x) → (∀ a, e.bus ≠ .read a) →
    ∃ t, step { s with script := .cycle { e with bus := .idle } :: rest } = .next t ∧ step s = .next (t.raise x)

/-! ### The CRC -/

/-- R132: the table form equals the bit-serial step on every accumulator and byte, in both of the rule's spellings, and
the table R135 prints is `crc_step(0, i)`. -/
def Obligations.TableFormEqualsBitSerialStep : Prop :=
  (∀ (c : Half) (b : Byte), crcStepTable c b = crcStep c b) ∧
  (∀ i : Byte, crcTable.getD i.toNat 0 = crcStep 0x0000 i) ∧
  ∀ (c : Half) (b : Byte), crcStep c b = (c >>> 8) ^^^ crcTable.getD (loByte c ^^^ b).toNat 0

/-- R131's corner cases and vectors of 95_test_vectors.md: the empty sequence, the check string, an offset. -/
def Obligations.Crc16KnownValues : Prop :=
  (∀ (data : Nat → Byte) (off : Nat), crc16 data 0 off = 0xFFFF) ∧
  crcOf [0x31, 0x32, 0x33, 0x34, 0x35, 0x36, 0x37, 0x38, 0x39] = 0x4B37 ∧
  crcOf [0x01, 0x03, 0x00, 0x00, 0x00, 0x0A] = 0xCDC5 ∧
  crc16 (byteAt [0xAA, 0x01, 0x03, 0x00, 0x00, 0x00, 0x0A]) 6 1 = 0xCDC5

/-- R134 item 1: the CRC of a sequence with its own CRC appended, low byte first, is 0. -/
def Obligations.ResidueOfAppendedCrcIsZero : Prop :=
  ∀ m : List Byte, crcOf (m ++ wireBytes (crcOf m)) = 0x0000

/-- R134 item 2: the trailing two bytes are the CRC of the bytes before them, in wire order, exactly when the CRC of all
the bytes is 0. -/
def Obligations.TrailingCrcIffZeroResidue : Prop :=
  ∀ (m : List Byte) (b0 b1 : Byte), [b0, b1] = wireBytes (crcOf m) ↔ crcOf (m ++ [b0, b1]) = 0x0000

/-- R134 item 3: a valid frame with two zero bytes appended is valid. -/
def Obligations.ValidFrameExtendsByZeros : Prop :=
  ∀ m : List Byte, isValidFrame m = true → isValidFrame (m ++ [0x00, 0x00]) = true

/-- R134 item 4: flipping any one bit of any byte of a valid frame makes it invalid. -/
def Obligations.SingleBitFlipIsDetected : Prop :=
  ∀ (m : List Byte) (i bit : Nat), isValidFrame m = true → i < m.length → bit < 8 →
    isValidFrame (flipBit m i bit) = false

/-- R133: the frame check's four answers, in the source's order of checks, on the first `n` bytes of any buffer. -/
def Obligations.FrameCheckContract : Prop :=
  ∀ (buf : Nat → Byte) (n : Nat),
    let legalUnit := 1 ≤ (buf 0).toNat ∧ (buf 0).toNat ≤ 247
    let crcMatches := [buf (n - 2), buf (n - 1)] = wireBytes (crc16 buf (n - 2) 0)
    (checkFrame buf n = .short ↔ n < 6) ∧
    (checkFrame buf n = .unitId ↔ 6 ≤ n ∧ ¬ legalUnit) ∧
    (checkFrame buf n = .crc ↔ 6 ≤ n ∧ legalUnit ∧ ¬ crcMatches) ∧
    (checkFrame buf n = .ok ↔ 6 ≤ n ∧ legalUnit ∧ crcMatches)

/-- The CRC round trip, as 90_conflicts.md C2 resolves it: a sequence of at least 4 bytes with a unit id in 1..247, with
its CRC appended in wire order, is a valid frame. -/
def Obligations.BuiltFrameIsValid : Prop :=
  ∀ m : List Byte, 4 ≤ m.length → 1 ≤ (byteAt m 0).toNat → (byteAt m 0).toNat ≤ 247 →
    isValidFrame (m ++ wireBytes (crcOf m)) = true

/-- R140: CE_INIT and then a CE_UPDATE for each byte, written to CMD cycle after cycle while no operation is in flight,
leave CE_CRC at the CRC of the bytes, whatever their number. -/
def Obligations.StreamingEquivalence : Prop :=
  ∀ (s : State) (bytes : List Byte) (rest : List HostStep),
    s.ce.op = none →
    s.script = (.ceInit :: bytes.map .ceUpdate).map (fun i => cmdCycle (encode i)) ++ rest →
    ∃ t, Reaches (bytes.length + 1) s t ∧ t.ce.crc = crcOf bytes ∧ t.ce.op = none ∧ t.script = rest

/-! ### Block operations -/

/-- R143, R148, R149: an operation in flight stays in flight, with CE_CRC and VREASON unchanged, for as many edges as it
waits, and completes at the next one, whatever the host writes meanwhile (short of reset): CE_CRC16 leaves the CRC of its
snapshot in CE_CRC and VREASON alone, CE_VALIDATE its reason in VREASON and CE_CRC alone; DONE is 1 and BUSY 0. -/
def Obligations.InFlightOperationCompletes : Prop :=
  ∀ (s : State) (op : InFlight), s.ce.op = some op → NoReset s.script →
    (∀ k, k ≤ op.wait → ∃ u, Reaches k s u ∧ u.ce.busy = true ∧ u.ce.crc = s.ce.crc ∧ u.ce.vreason = s.ce.vreason) ∧
    ∃ t, Reaches (op.wait + 1) s t ∧ t.ce.busy = false ∧ t.ce.done = true ∧
      match op.kind with
      | .crc16 off len =>
        t.ce.crc = crc16 (memByte op.snap s.ce.epoch) len.toNat off.toNat ∧ t.ce.vreason = s.ce.vreason
      | .validate len =>
        t.ce.vreason = checkFrame (memByte op.snap s.ce.epoch) len.toNat ∧ t.ce.crc = s.ce.crc

/-- From a CE_CRC16 or CE_VALIDATE written to CMD while the engine is free, the operands in range: after some number of
edges, at least two, the result is a function of DBUF, CE_OFFSET and CE_LENGTH as they stood at the command, whatever the
host writes meanwhile and whatever the latency is. -/
def Obligations.ResultDependsOnAcceptanceOnly : Prop :=
  ∀ (s : State) (rest : List HostStep), s.ce.op = none → NoReset rest →
    (s.ce.offset.toNat + s.ce.length.toNat ≤ s.params.dbufBytes → s.script = cmdCycle (encode .ceCrc16) :: rest →
      ∃ n t, 2 ≤ n ∧ Reaches n s t ∧ t.ce.busy = false ∧ t.ce.done = true ∧
        t.ce.crc = crc16 s.ce.dbufByte s.ce.length.toNat s.ce.offset.toNat) ∧
    (s.ce.length.toNat ≤ s.params.dbufBytes → s.script = cmdCycle (encode .ceValidate) :: rest →
      ∃ n t, 2 ≤ n ∧ Reaches n s t ∧ t.ce.busy = false ∧ t.ce.done = true ∧ t.ce.crc = s.ce.crc ∧
        t.ce.vreason = checkFrame s.ce.dbufByte s.ce.length.toNat)

/-- The polling loop WAITDONE of the host (30_encoding.md R123) ends: with an operation in flight it reads CE_STATUS
until the read after the completing edge, whose value has BUSY = 0 and DONE = 1, and only then the script goes on. -/
def Obligations.WaitDoneLoopEnds : Prop :=
  ∀ (s : State) (op : InFlight) (rest : List HostStep), s.ce.op = some op → s.script = .waitDone :: rest →
    (∀ k, k ≤ op.wait + 1 → ∃ u, Reaches k s u ∧ u.script = .waitDone :: rest) ∧
    ∃ t v, Reaches (op.wait + 2) s t ∧ t.script = rest ∧ t.busRdata = some v ∧
      v.getLsbD 0 = false ∧ v.getLsbD 1 = true

/-- An operation that reads only written bytes gives a result that no unspecified value enters: the result is the same
whatever DBUF held at reset (10_state.md R51, 70_reset_and_hazards.md R242). -/
def Obligations.WrittenDbufGivesSpecifiedResult : Prop :=
  ∀ (c : Ce) (op : InFlight) (epoch : Nat),
    (match op.kind with
      | .crc16 off len => ReadsWritten op.snap off.toNat len.toNat
      | .validate len => 6 ≤ len.toNat → ReadsWritten op.snap 0 len.toNat) →
    { c with epoch := epoch }.complete op = { c.complete op with epoch := epoch }

/-! ### Reset -/

/-- R230: a rising edge with `rst` = 1 gives every piece of state its reset value, from any state, whatever the bus and
the receiver do in that cycle, an operation in flight included. -/
def Obligations.ResetEdgeGivesResetValues : Prop :=
  ∀ (s : State) (e : EdgeInput) (rest : List HostStep),
    s.script = .cycle e :: rest → e.rst = true → s.params.legal = true →
    ∃ t, step s = .next t ∧ t.params = s.params ∧
      t.ce.crc = 0xFFFF ∧ t.ce.offset = 0 ∧ t.ce.length = 0 ∧ t.ce.op = none ∧ t.ce.busy = false ∧
      t.ce.done = false ∧ t.ce.valid = false ∧ t.ce.vreason = .none ∧ (∀ x : Err, t.err x = false) ∧
      t.intEn = 0 ∧ t.fd.en = false ∧ t.fd.silence = s.params.silenceReset ∧
      t.fd.asm = [] ∧ t.fd.asmOvf = false ∧ t.fd.silCnt = 0 ∧ t.fd.queue = [] ∧
      readReg t .paramDbuf = readReg s .paramDbuf ∧ readReg t .paramFd = readReg s .paramFd ∧
      readReg t .ceStatus = 0 ∧ readReg t .fdStatus = 0 ∧ readReg t .fdAsmlen = 0 ∧ readReg t .fdHead = 0 ∧
      readReg t .intStatus = 0 ∧ t.irq = false

/-- The state after reset with the default parameters (00_scope.md R8, 70_reset_and_hazards.md R230), and how PARAM_DBUF
and PARAM_FD show the parameters of every legal build (R36, R37). That the script is empty, no value has been read, no
edge is counted and DBUF lists no written byte is the model's choice (log entries 1, 2, 3 and 6). -/
def Obligations.ResetStateValues : Prop :=
  State.reset.params.dbufBytes = 256 ∧ State.reset.params.fb = 256 ∧ State.reset.params.qd = 2 ∧
  State.reset.params.legal = true ∧
  (silenceCycles State.reset.params.clkHz State.reset.params.baudReset < 2 ^ 32 →
    State.reset.fd.silence.toNat = silenceCycles State.reset.params.clkHz State.reset.params.baudReset) ∧
  State.reset.ce.crc = 0xFFFF ∧ State.reset.ce.op = none ∧ State.reset.fd.en = false ∧ State.reset.fd.queue = [] ∧
  State.reset.intEn = 0 ∧ State.reset.irq = false ∧ State.reset.ce.dbuf = [] ∧
  busRead State.reset 0x00000 = 0x00000100 ∧ busRead State.reset 0x00004 = 0x01020100 ∧
  State.reset.script = [] ∧ State.reset.busRdata = none ∧ State.reset.edges = 0 ∧
  ∀ s : State, s.params.legal = true →
    (busRead s 0x00000).toNat = s.params.dbufBytes ∧
    ((busRead s 0x00004).extractLsb' 0 16).toNat = s.params.fb ∧
    ((busRead s 0x00004).extractLsb' 16 8).toNat = s.params.qd ∧ (busRead s 0x00004).extractLsb' 24 8 = 0x01#8

/-! ### The bus -/

/-- R86: a read returns the value before the edge and has no side effect: but for the value read, the next state is that
of the same cycle without the access. -/
def Obligations.ReadHasNoSideEffect : Prop :=
  ∀ (s : State) (e : EdgeInput) (rest : List HostStep) (a : BusAddr),
    s.script = .cycle e :: rest → e.bus = .read a →
    ∃ t, step s = .next t ∧ t.busRdata = some (busRead s a) ∧
      step { s with script := .cycle { e with bus := .idle } :: rest } = .next { t with busRdata := none }

/-- R82: `bus_addr[1:0]` is ignored by every read and every write, and no access faults. -/
def Obligations.LowAddressBitsAreIgnored : Prop :=
  ∀ (s : State) (a : BusAddr) (w : Word),
    busRead s a = busRead s (a &&& 0x1FFFC) ∧ busWrite a w s = busWrite (a &&& 0x1FFFC) w s ∧
    ∃ t, busWrite a w s = .next t

/-- R83: unmapped addresses read 0 and ignore writes, a DBUF-window word past DBUF_BYTES as well; CMD reads 0; the
read-only registers and the FRAME window ignore writes; bits outside a register's defined ones read 0 and do not matter
in a write. -/
def Obligations.UnmappedReadOnlyAndReserved : Prop :=
  (∀ (s : State) (a : BusAddr) (w : Word),
    ((0x38 ≤ a.toNat ∧ a.toNat < 0x4000) ∨ (0x8000 ≤ a.toNat ∧ a.toNat < 0x10000) ∨
      0x10000 + s.params.dbufBytes ≤ (a &&& 0x1FFFC).toNat) →
    busRead s a = 0 ∧ busWrite a w s = .next s) ∧
  (∀ (s : State) (a : BusAddr) (w : Word), 0x4000 ≤ a.toNat → a.toNat < 0x8000 → busWrite a w s = .next s) ∧
  (∀ (s : State) (r : Reg) (w : Word), r ∈ [.paramDbuf, .paramFd, .fdAsmlen, .fdHead, .intStatus] →
    busWrite (regAddr r) w s = .next s) ∧
  (∀ s : State, busRead s (regAddr .cmd) = 0) ∧
  ∀ (s : State) (r : Reg) (readMask writeMask : Word),
    (r, readMask, writeMask) ∈
      [(.ceStatus, 0x00000777, 0x00000702), (.ceCrc, 0x0000FFFF, 0x0000FFFF), (.ceOffset, 0x0000FFFF, 0x0000FFFF),
       (.ceLength, 0x0000FFFF, 0x0000FFFF), (.intEn, 0x00000007, 0x00000007), (.fdCtrl, 0x00000001, 0x00000001),
       (.fdStatus, 0x00FF030F, 0x00000300), (.fdAsmlen, 0x0000FFFF, 0x00000000),
       (.fdHead, 0x8003FFFF, 0x00000000), (.intStatus, 0x80000007, 0x00000000)] →
    busRead s (regAddr r) &&& ~~~readMask = 0 ∧
    ∀ w : Word, busWrite (regAddr r) w s = busWrite (regAddr r) (w &&& writeMask) s

/-- R39, R40, R42: the fields of CE_STATUS. -/
def Obligations.CeStatusFields : Prop :=
  ∀ s : State,
    let w := busRead s 0x0000C
    (w.getLsbD 0 = true ↔ s.ce.op ≠ none) ∧ w.getLsbD 1 = s.ce.done ∧ (w.getLsbD 2 = true ↔ s.ce.vreason = .ok) ∧
    w.getLsbD 3 = false ∧
    w.extractLsb' 4 3 =
      (match s.ce.vreason with
        | .none => 0#3
        | .ok => 1#3
        | .short => 2#3
        | .unitId => 3#3
        | .crc => 4#3) ∧
    w.getLsbD 7 = false ∧ w.getLsbD 8 = s.ce.errIllegal ∧ w.getLsbD 9 = s.ce.errBusy ∧
    w.getLsbD 10 = s.ce.errRange ∧ w.extractLsb' 11 21 = 0#21

/-- R47, R48: the fields of FD_STATUS and FD_ASMLEN, where the queue and the assembling buffer have the lengths the
parameters allow. -/
def Obligations.FdStatusFields : Prop :=
  ∀ s : State, s.params.legal = true → s.fd.queue.length ≤ s.params.qd → s.fd.asm.length ≤ s.params.fb →
    let w := busRead s 0x00028
    (w.getLsbD 0 = true ↔ 0 < s.fd.queue.length) ∧ (w.getLsbD 1 = true ↔ s.fd.queue.length = s.params.qd) ∧
    (w.getLsbD 2 = true ↔ 0 < s.fd.asm.length) ∧ w.getLsbD 3 = s.fd.asmOvf ∧ w.extractLsb' 4 4 = 0#4 ∧
    w.getLsbD 8 = s.fd.errOvf ∧ w.getLsbD 9 = s.fd.errQovr ∧ w.extractLsb' 10 6 = 0#6 ∧
    (w.extractLsb' 16 8).toNat = s.fd.queue.length ∧ w.extractLsb' 24 8 = 0#8 ∧
    (busRead s 0x0002C).toNat = s.fd.asm.length

/-- R49, R89: FD_HEAD and the FRAME window describe the head frame; all read 0 while the queue is empty; a byte past the
frame's length reads 0. -/
def Obligations.HeadFrameIsVisible : Prop :=
  (∀ s : State, s.fd.queue = [] → busRead s 0x00030 = 0 ∧
    ∀ a : BusAddr, 0x4000 ≤ a.toNat → a.toNat < 0x8000 → busRead s a = 0) ∧
  ∀ (s : State) (h : Frame) (q : List Frame), s.fd.queue = h :: q → h.bytes.length ≤ 16384 →
    let w := busRead s 0x00030
    (w.extractLsb' 0 16).toNat = h.bytes.length ∧
    w.extractLsb' 16 2 = (match h.cause with
      | .valid => 0#2
      | .silence => 1#2
      | .overflow => 2#2) ∧
    w.extractLsb' 18 13 = 0#13 ∧ w.getLsbD 31 = true ∧
    ∀ (m k : Nat), m < 4096 → k < 4 →
      (busRead s (BitVec.ofNat 17 (0x4000 + 4 * m))).extractLsb' (8 * k) 8 = (h.bytes[4 * m + k]?).getD 0

/-- R50, R59: INT_STATUS and `irq`, both 0 after reset. -/
def Obligations.InterruptOutput : Prop :=
  State.reset.irq = false ∧ busRead State.reset 0x00034 = 0 ∧ ∀ s : State,
    let anyErr := s.ce.errIllegal || s.ce.errBusy || s.ce.errRange || s.fd.errOvf || s.fd.errQovr
    let w := busRead s 0x00034
    (s.irq = true ↔ (s.intEn.getLsbD 0 = true ∧ s.ce.done = true) ∨ (s.intEn.getLsbD 1 = true ∧ anyErr = true) ∨
      (s.intEn.getLsbD 2 = true ∧ s.fd.queue ≠ [])) ∧
    w.getLsbD 0 = s.ce.done ∧ w.getLsbD 1 = anyErr ∧ (w.getLsbD 2 = true ↔ s.fd.queue ≠ []) ∧
    w.extractLsb' 3 28 = 0#28 ∧ w.getLsbD 31 = s.irq

/-- R85, R236: what a cycle writes to a read-write register is read back in the next, in its defined bits; INT_EN,
FD_CTRL and FD_SILENCE in any state, CE_CRC, CE_OFFSET and CE_LENGTH while no operation is in flight. The write itself
(step 2 of the edge) replaces that one field and changes nothing else. -/
def Obligations.WrittenRegisterReadsBack : Prop :=
  (∀ (s : State) (e : EdgeInput) (rest : List HostStep) (r : Reg) (mask w : Word),
    s.script = .cycle e :: rest → e.rst = false → e.bus = .write (regAddr r) w →
    (r, mask) ∈ [(Reg.intEn, 0x00000007#32), (.fdCtrl, 0x00000001), (.fdSilence, 0xFFFFFFFF)] ∨
      ((r, mask) ∈ [(Reg.ceCrc, 0x0000FFFF#32), (.ceOffset, 0x0000FFFF), (.ceLength, 0x0000FFFF)] ∧ s.ce.op = none) →
    ∃ t, step s = .next t ∧ busRead t (regAddr r) = w &&& mask) ∧
  ∀ (s : State) (w : Word),
    busWrite (regAddr .intEn) w s = .next { s with intEn := w.extractLsb' 0 3 } ∧
    busWrite (regAddr .fdCtrl) w s = .next { s with fd := { s.fd with en := w.getLsbD 0 } } ∧
    busWrite (regAddr .fdSilence) w s = .next { s with fd := { s.fd with silence := w } } ∧
    (s.ce.op = none →
      busWrite (regAddr .ceCrc) w s = .next { s with ce := { s.ce with crc := w.extractLsb' 0 16 } } ∧
      busWrite (regAddr .ceOffset) w s = .next { s with ce := { s.ce with offset := w.extractLsb' 0 16 } } ∧
      busWrite (regAddr .ceLength) w s = .next { s with ce := { s.ce with length := w.extractLsb' 0 16 } })

/-- R87, R90: the DBUF-window word at an index j below DBUF_BYTES reads DBUF[j + k] in byte lane k, in every state, BUSY
or not. A word written there while no operation is in flight changes its four bytes, byte lane k at index j + k, every
other byte and all other state stay, and the word reads back. -/
def Obligations.DbufWordWrite : Prop :=
  (∀ (s : State) (j k : Nat), s.params.legal = true → j % 4 = 0 → j < s.params.dbufBytes → k < 4 →
    (busRead s (BitVec.ofNat 17 (0x10000 + j))).extractLsb' (8 * k) 8 = s.ce.dbufByte (j + k)) ∧
  ∀ (s : State) (j : Nat) (w : Word), s.params.legal = true → s.ce.op = none → j % 4 = 0 → j < s.params.dbufBytes →
    ∃ t, busWrite (BitVec.ofNat 17 (0x10000 + j)) w s = .next t ∧
      t = { s with ce := { s.ce with dbuf := t.ce.dbuf } } ∧
      (∀ k, k < 4 → t.ce.dbufByte (j + k) = w.extractLsb' (8 * k) 8) ∧
      (∀ i, i < j ∨ j + 4 ≤ i → t.ce.dbufByte i = s.ce.dbufByte i) ∧
      busRead t (BitVec.ofNat 17 (0x10000 + j)) = w

/-- R88: while BUSY, a write to CE_CRC, CE_OFFSET, CE_LENGTH or a DBUF word below DBUF_BYTES changes nothing but
ERR_BUSY, and so does a CE command; a write to CE_STATUS, INT_EN, FD_CTRL, FD_SILENCE or FD_STATUS and an FD command have
the effect they have otherwise; and in no state does any other write set ERR_BUSY. -/
def Obligations.WritesRefusedWhileBusy : Prop :=
  (∀ (s : State) (a : BusAddr) (w : Word), s.ce.op ≠ none →
    (addrTarget a ∈ [.reg .ceCrc, .reg .ceOffset, .reg .ceLength] ∨
      (∃ j, addrTarget a = .dbuf j ∧ j < s.params.dbufBytes) ∨
      (addrTarget a = .reg .cmd ∧ ∃ i, decode w = .legal i ∧ i.isCeCommand = true) →
      busWrite a w s = .next { s with ce := { s.ce with errBusy := true } }) ∧
    (addrTarget a ∈ [.reg .ceStatus, .reg .intEn, .reg .fdCtrl, .reg .fdSilence, .reg .fdStatus] ∨
      (addrTarget a = .reg .cmd ∧ decode w ∈ [.legal .nop, .legal .fdPop, .legal .fdFlush, .legal .fdQclear]) →
      ∃ t t', busWrite a w s = .next t ∧ busWrite a w { s with ce := { s.ce with op := none } } = .next t' ∧
        t' = { t with ce := { t.ce with op := none } } ∧ t.ce.op = s.ce.op)) ∧
  ∀ (s t : State) (a : BusAddr) (w : Word), busWrite a w s = .next t → s.ce.errBusy = false → t.ce.errBusy = true →
    s.ce.op ≠ none ∧
      (addrTarget a ∈ [.reg .ceCrc, .reg .ceOffset, .reg .ceLength] ∨
        (∃ j, addrTarget a = .dbuf j ∧ j < s.params.dbufBytes) ∨
        (addrTarget a = .reg .cmd ∧ ∃ i, decode w = .legal i ∧ i.isCeCommand = true))

/-- R205: a write to CE_STATUS clears each of DONE, ERR_ILLEGAL, ERR_BUSY and ERR_RANGE whose bit is 1, a write to
FD_STATUS each of ERR_OVF and ERR_QOVR, and neither changes anything else. -/
def Obligations.WriteOneClearsFlags : Prop :=
  ∀ (s : State) (w : Word),
    busWrite 0x0000C w s =
      .next { s with ce := { s.ce with
        done := s.ce.done && !w.getLsbD 1
        errIllegal := s.ce.errIllegal && !w.getLsbD 8
        errBusy := s.ce.errBusy && !w.getLsbD 9
        errRange := s.ce.errRange && !w.getLsbD 10 } } ∧
    busWrite 0x00028 w s =
      .next { s with fd := { s.fd with
        errOvf := s.fd.errOvf && !w.getLsbD 8
        errQovr := s.fd.errQovr && !w.getLsbD 9 } }

/-- R41, R43, R178: set wins. An edge that both completes an operation and carries a write of CE_STATUS ends with DONE =
1; one that writes FD_STATUS and drops a byte for a full buffer ends with ERR_OVF at 1; one that writes FD_STATUS and
drops a frame for a full queue, whether a valid one at its last byte or one that silence ends (R170, R172), ends with
ERR_QOVR at 1. -/
def Obligations.SetWinsOverClear : Prop :=
  ∀ (s : State) (e : EdgeInput) (rest : List HostStep) (w : Word),
    s.script = .cycle e :: rest → e.rst = false →
    (∀ op, s.ce.op = some op → op.wait = 0 → e.bus = .write 0x0000C w → ∃ t, step s = .next t ∧ t.ce.done = true) ∧
    (e.bus = .write 0x00028 w → s.fd.en = true → e.rxValid = true → s.params.fb ≤ s.fd.asm.length →
      ∃ t, step s = .next t ∧ t.fd.errOvf = true) ∧
    (e.bus = .write 0x00028 w → s.fd.en = true → e.rxValid = true → s.fd.asm.length < s.params.fb →
      isValidFrame (s.fd.asm ++ [e.rxData]) = true → s.params.qd ≤ s.fd.queue.length →
      ∃ t, step s = .next t ∧ t.fd.errQovr = true) ∧
    (e.bus = .write 0x00028 w → s.fd.en = true → e.rxValid = false → e.rxActive = false → s.fd.asm ≠ [] →
      s.fd.silence ≠ 0 → s.fd.silence.toNat ≤ s.fd.silCnt.toNat + 1 → s.params.qd ≤ s.fd.queue.length →
      ∃ t, step s = .next t ∧ t.fd.errQovr = true)

/-- R205: DONE and the error flags are cleared only by a write of 1 to their bit or by reset. -/
def Obligations.FlagsClearedOnlyByHost : Prop :=
  ∀ s t : State, step s = .next t → s.nextInput.rst = false →
    let writesOneTo (r : Reg) (bit : Nat) :=
      ∃ a w, s.nextInput.bus = .write a w ∧ addrTarget a = .reg r ∧ w.getLsbD bit = true
    (s.ce.done = true → t.ce.done = false → writesOneTo .ceStatus 1) ∧
    (s.ce.errIllegal = true → t.ce.errIllegal = false → writesOneTo .ceStatus 8) ∧
    (s.ce.errBusy = true → t.ce.errBusy = false → writesOneTo .ceStatus 9) ∧
    (s.ce.errRange = true → t.ce.errRange = false → writesOneTo .ceStatus 10) ∧
    (s.fd.errOvf = true → t.fd.errOvf = false → writesOneTo .fdStatus 8) ∧
    (s.fd.errQovr = true → t.fd.errQovr = false → writesOneTo .fdStatus 9)

/-! ### The Frame Boundary Detector -/

/-- R163, R161: where the bus access of a cycle (of any kind) leaves EN = 0, a byte is discarded with no flag, the
assembling buffer is empty after the edge, and the queue stays as the access left it; an access that is no write to the FD
leaves all of the FD as it was. A cycle that writes EN = 0 discards the frame at that edge, one that writes EN = 1 accepts
its byte. -/
def Obligations.DisabledDetectorDiscards : Prop :=
  ∀ (s : State) (e : EdgeInput) (rest : List HostStep), s.script = .cycle e :: rest → e.rst = false →
    (∀ m, busPhase e.bus s.beginEdge = .next m → m.fd.en = false →
      (e.bus.leavesFd = true → m.fd = s.fd) ∧
      ∃ t, step s = .next t ∧ t.fd = { m.fd with asm := [], asmOvf := false, silCnt := 0 }) ∧
    (e.bus = .write 0x00020 0x00000000 →
      ∃ t, step s = .next t ∧ t.fd = { s.fd with en := false, asm := [], asmOvf := false, silCnt := 0 }) ∧
    (e.bus = .write 0x00020 0x00000001 → s.fd.asm = [] → 1 ≤ s.params.fb → e.rxValid = true →
      ∃ t, step s = .next t ∧ t.fd.en = true ∧ t.fd.asm = [e.rxData])

/-- R161, R165, R166, R167, R172: a byte received in a cycle with any bus access, where the access leaves EN = 1. The FD
acts on what the access left, which is all of the FD as it was unless the access writes to the FD. With room the byte is
appended; if the bytes so far are a valid frame, the frame enters the queue with cause VALID at the same edge, or is
dropped with ERR_QOVR on a full queue, and the assembling buffer is empty. With no room the byte is dropped, asm_ovf and
ERR_OVF are set and no boundary is declared. -/
def Obligations.ByteReceipt : Prop :=
  ∀ (s : State) (e : EdgeInput) (rest : List HostStep) (m : State),
    s.script = .cycle e :: rest → e.rst = false → busPhase e.bus s.beginEdge = .next m → m.fd.en = true →
    e.rxValid = true →
    let bytes := m.fd.asm ++ [e.rxData]
    (e.bus.leavesFd = true → m.fd = s.fd) ∧
    ∃ t, step s = .next t ∧
      (m.fd.asm.length < s.params.fb → isValidFrame bytes = false →
        t.fd = { m.fd with asm := bytes, silCnt := 0 }) ∧
      (m.fd.asm.length < s.params.fb → isValidFrame bytes = true → m.fd.queue.length < s.params.qd →
        t.fd = { m.fd with asm := [], asmOvf := false, silCnt := 0, queue := m.fd.queue ++ [⟨bytes, .valid⟩] }) ∧
      (m.fd.asm.length < s.params.fb → isValidFrame bytes = true → s.params.qd ≤ m.fd.queue.length →
        t.fd = { m.fd with asm := [], asmOvf := false, silCnt := 0, errQovr := true }) ∧
      (s.params.fb ≤ m.fd.asm.length → t.fd = { m.fd with asmOvf := true, silCnt := 0, errOvf := true })

/-- R161, R168 to R172: a cycle without a byte and with any bus access, where the access leaves EN = 1. The FD acts on
what the access left, which is all of the FD as it was unless the access writes to the FD. `rx_active` clears sil_cnt; a
silent cycle with asm empty holds it at 0; otherwise the timeout ends the frame, by OVERFLOW if a byte was dropped and by
SILENCE if not, or sil_cnt counts, saturating; with FD_SILENCE = 0 it always counts. -/
def Obligations.CycleWithoutByte : Prop :=
  ∀ (s : State) (e : EdgeInput) (rest : List HostStep) (m : State),
    s.script = .cycle e :: rest → e.rst = false → busPhase e.bus s.beginEdge = .next m → m.fd.en = true →
    e.rxValid = false →
    let expired := m.fd.silence ≠ 0 ∧ m.fd.silence.toNat ≤ m.fd.silCnt.toNat + 1
    (e.bus.leavesFd = true → m.fd = s.fd) ∧
    ∃ t, step s = .next t ∧
      (e.rxActive = true → t.fd = { m.fd with silCnt := 0 }) ∧
      (e.rxActive = false → m.fd.asm = [] → t.fd = { m.fd with silCnt := 0 }) ∧
      (e.rxActive = false → m.fd.asm ≠ [] → ¬ expired →
        t.fd = { m.fd with silCnt := t.fd.silCnt } ∧ t.fd.silCnt.toNat = min (m.fd.silCnt.toNat + 1) (2 ^ 32 - 1)) ∧
      (e.rxActive = false → m.fd.asm ≠ [] → expired → m.fd.queue.length < s.params.qd →
        t.fd = { m.fd with
          asm := []
          asmOvf := false
          silCnt := 0
          queue := m.fd.queue ++ [⟨m.fd.asm, if m.fd.asmOvf then .overflow else .silence⟩] }) ∧
      (e.rxActive = false → m.fd.asm ≠ [] → expired → s.params.qd ≤ m.fd.queue.length →
        t.fd = { m.fd with asm := [], asmOvf := false, silCnt := 0, errQovr := true })

/-- R170: with FD_SILENCE = S >= 1, a frame whose last byte has just arrived, followed only by silent cycles, is emitted
at the S-th silent edge and at no earlier one, whatever bus accesses those cycles make that do not write to the FD. -/
def Obligations.SilenceBoundaryAtEdgeS : Prop :=
  ∀ (s : State) (cycles : List EdgeInput) (rest : List HostStep),
    s.fd.en = true → s.fd.asm ≠ [] → s.fd.silCnt = 0 → s.fd.silence ≠ 0 → s.fd.queue.length < s.params.qd →
    cycles.length = s.fd.silence.toNat →
    (∀ e ∈ cycles, e.rst = false ∧ e.bus.leavesFd = true ∧ e.rxSilent = true) →
    s.script = cycles.map .cycle ++ rest →
    (∀ k, k < s.fd.silence.toNat →
      ∃ u, Reaches k s u ∧ u.fd.asm = s.fd.asm ∧ u.fd.queue = s.fd.queue ∧ u.fd.silCnt.toNat = k) ∧
    ∃ t, Reaches s.fd.silence.toNat s t ∧ t.fd.asm = [] ∧
      t.fd.queue = s.fd.queue ++ [⟨s.fd.asm, if s.fd.asmOvf then .overflow else .silence⟩]

/-- R174: a stream of bytes with fewer than FD_SILENCE silent cycles in each gap (any number if FD_SILENCE = 0, and any
number of cycles with a character in progress), no proper beginning of which is a valid frame, is assembled into one frame
and emitted with cause VALID at the byte that makes it valid, whatever bus accesses its cycles make that do not write to
the FD. -/
def Obligations.GappedStreamIsOneFrame : Prop :=
  ∀ (s : State) (first : EdgeInput) (more : List (List EdgeInput × EdgeInput)) (rest : List HostStep),
    let bytes := streamBytes first more
    s.fd.en = true → s.fd.asm = [] → s.fd.queue.length < s.params.qd →
    (∀ e ∈ streamInputs first more, e.rst = false ∧ e.bus.leavesFd = true) →
    first.rxValid = true →
    (∀ g ∈ more, g.2.rxValid = true ∧ (∀ e ∈ g.1, e.rxValid = false) ∧
      (s.fd.silence ≠ 0 → (g.1.filter EdgeInput.rxSilent).length < s.fd.silence.toNat)) →
    bytes.length ≤ s.params.fb →
    (∀ k, k < bytes.length → isValidFrame (bytes.take k) = false) → isValidFrame bytes = true →
    s.script = (streamInputs first more).map .cycle ++ rest →
    ∃ t, Reaches (streamInputs first more).length s t ∧ t.script = rest ∧ t.fd.asm = [] ∧
      t.fd.queue = s.fd.queue ++ [⟨bytes, .valid⟩]

/-- R178: at one edge the bus write acts before the FD step: a pop or a clear before a frame enters the queue, a flush
before a byte is appended, a new FD_SILENCE before the comparison, which goes on from the running sil_cnt (R182). -/
def Obligations.SameEdgeOrder : Prop :=
  ∀ (s : State) (e : EdgeInput) (rest : List HostStep),
    s.script = .cycle e :: rest → e.rst = false → s.fd.en = true →
    (∀ (h : Frame) (q : List Frame), e.bus = .write 0x00008 0x00000010 → e.rxValid = true →
      isValidFrame (s.fd.asm ++ [e.rxData]) = true → s.fd.asm.length < s.params.fb →
      s.fd.queue = h :: q → q.length < s.params.qd →
      ∃ t, step s = .next t ∧ t.fd.queue = q ++ [⟨s.fd.asm ++ [e.rxData], .valid⟩] ∧ t.fd.errQovr = s.fd.errQovr) ∧
    (e.bus = .write 0x00008 0x00000012 → e.rxValid = true →
      isValidFrame (s.fd.asm ++ [e.rxData]) = true → s.fd.asm.length < s.params.fb → 1 ≤ s.params.qd →
      ∃ t, step s = .next t ∧ t.fd.queue = [⟨s.fd.asm ++ [e.rxData], .valid⟩]) ∧
    (e.bus = .write 0x00008 0x00000011 → e.rxValid = true → 1 ≤ s.params.fb →
      ∃ t, step s = .next t ∧ t.fd.asm = [e.rxData] ∧ t.fd.queue = s.fd.queue) ∧
    (∀ w : Word, e.bus = .write 0x00024 w → e.rxValid = false → e.rxActive = false → s.fd.asm ≠ [] →
      s.fd.queue.length < s.params.qd → w ≠ 0 →
      ∃ t, step s = .next t ∧ t.fd.silence = w ∧
        (w.toNat ≤ s.fd.silCnt.toNat + 1 →
          t.fd.queue = s.fd.queue ++ [⟨s.fd.asm, if s.fd.asmOvf then .overflow else .silence⟩]) ∧
        (s.fd.silCnt.toNat + 1 < w.toNat →
          t.fd.queue = s.fd.queue ∧ t.fd.asm = s.fd.asm ∧ t.fd.silCnt.toNat = s.fd.silCnt.toNat + 1))

/-- R180: in every state that meets the invariant, a queued frame of fewer than 6 bytes, or with a unit id outside
1..247, does not have cause VALID. -/
def Obligations.ShortAndForeignFramesAreNeverValid : Prop :=
  ∀ (s : State) (r : Frame), s.Inv → r ∈ s.fd.queue →
    r.bytes.length < 6 ∨ (byteAt r.bytes 0).toNat = 0 ∨ 248 ≤ (byteAt r.bytes 0).toNat → r.cause ≠ .valid

/-! ### The whole machine -/

/-- The invariant holds of the state after reset. -/
def Obligations.InvariantHoldsAtReset : Prop := State.reset.Inv

/-- Every step keeps the invariant: DBUF is canonical and in range; an operation in flight has its operands in range, its
snapshot is DBUF and its hidden accumulator is the CRC of the bytes passed; the assembling buffer is no longer than FB,
full if it has overflowed, empty while EN = 0, and no beginning of it is a valid frame; sil_cnt is below a timeout that
is on; the queue is no longer than QD and every frame in it is coherent with its cause and has no valid proper
beginning. -/
def Obligations.StepKeepsTheInvariant : Prop :=
  ∀ s t : State, s.Inv → step s = .next t → t.Inv

/-- R200, R81: the block never stops: in every state, whatever the cycle's inputs, the edge has an outcome; the build's
parameters stay. -/
def Obligations.EveryEdgeHasANextState : Prop :=
  ∀ s : State, ∃ t, step s = .next t ∧ t.params = s.params ∧ t.edges = s.edges + 1

/-- R102, R161: the FD never reads the CE's state: two states with the same FD, the same parameters and the same cycle
have the same FD after the edge, whatever the CE does. -/
def Obligations.DetectorIsIndependentOfEngine : Prop :=
  ∀ (s s' t t' : State) (e : EdgeInput) (rest rest' : List HostStep),
    s.script = .cycle e :: rest → s'.script = .cycle e :: rest' → s.params = s'.params → s.fd = s'.fd →
    step s = .next t → step s' = .next t' → t.fd = t'.fd

/-- R102: the CE never reads the FD's state or the serial inputs: two states with the same CE, the same parameters and
edge count, and cycles with the same reset and bus access, have the same CE after the edge. -/
def Obligations.EngineIsIndependentOfDetector : Prop :=
  ∀ (s s' t t' : State) (e e' : EdgeInput) (rest rest' : List HostStep),
    s.script = .cycle e :: rest → s'.script = .cycle e' :: rest' → e.rst = e'.rst → e.bus = e'.bus →
    s.params = s'.params → s.edges = s'.edges → s.ce = s'.ce →
    step s = .next t → step s' = .next t' → t.ce = t'.ce

/-- R33 to R35, R40 to R42, R44, R51: what alone changes, at an edge without reset, each of these. CE_CRC: a host write to
it, CE_INIT or CE_UPDATE while no operation is in flight, or the completion of a CE_CRC16. VREASON: the completion of a
CE_VALIDATE. CE_OFFSET, CE_LENGTH and a byte of DBUF: a host write to it, while no operation is in flight, and it takes
the written value. INT_EN: a host write to it. DONE goes from 0 to 1 only at a completion. ce_op goes from none to an
operation only by CE_CRC16 or CE_VALIDATE with its operands in range, and an operation in flight completes with no edge
left to wait (`wait` is the model's own count of the free latency, log entry 4) or else stays, with its operands and its
snapshot. -/
def Obligations.ResultRegistersChangeOnlyByRule : Prop :=
  ∀ s t : State, step s = .next t → s.nextInput.rst = false →
    let writes (x : Target) (w : Word) := ∃ a, s.nextInput.bus = .write a w ∧ addrTarget a = x
    (t.ce.crc ≠ s.ce.crc →
      (s.ce.op = none ∧ ∃ w, writes (.reg .ceCrc) w ∨
        (writes (.reg .cmd) w ∧ (decode w = .legal .ceInit ∨ ∃ b, decode w = .legal (.ceUpdate b)))) ∨
      ∃ op off len, s.ce.op = some op ∧ op.wait = 0 ∧ op.kind = .crc16 off len) ∧
    (t.ce.vreason ≠ s.ce.vreason →
      ∃ op len, s.ce.op = some op ∧ op.wait = 0 ∧ op.kind = .validate len) ∧
    (t.ce.offset ≠ s.ce.offset →
      s.ce.op = none ∧ ∃ w, writes (.reg .ceOffset) w ∧ t.ce.offset = w.extractLsb' 0 16) ∧
    (t.ce.length ≠ s.ce.length →
      s.ce.op = none ∧ ∃ w, writes (.reg .ceLength) w ∧ t.ce.length = w.extractLsb' 0 16) ∧
    (∀ i, t.ce.dbufByte i ≠ s.ce.dbufByte i →
      s.ce.op = none ∧ ∃ w j k, writes (.dbuf j) w ∧ j < s.params.dbufBytes ∧ k < 4 ∧ i = j + k ∧
        t.ce.dbufByte i = w.extractLsb' (8 * k) 8) ∧
    (t.intEn ≠ s.intEn → ∃ w, writes (.reg .intEn) w ∧ t.intEn = w.extractLsb' 0 3) ∧
    (s.ce.done = false → t.ce.done = true → ∃ op, s.ce.op = some op ∧ op.wait = 0) ∧
    (s.ce.op = none → t.ce.op ≠ none → ∃ w, writes (.reg .cmd) w ∧
      ((decode w = .legal .ceCrc16 ∧ s.ce.offset.toNat + s.ce.length.toNat ≤ s.params.dbufBytes) ∨
        (decode w = .legal .ceValidate ∧ s.ce.length.toNat ≤ s.params.dbufBytes))) ∧
    ∀ op, s.ce.op = some op →
      (op.wait = 0 ∧ t.ce.op = none) ∨
      ∃ op' : InFlight, t.ce.op = some op' ∧ op'.kind = op.kind ∧ op'.snap = op.snap ∧ op.wait = op'.wait + 1

/-- R55, R173: frames leave the queue only by FD_POP, FD_QCLEAR or reset; at any other edge the queue keeps all its
frames in their order and gains at most one, at its end. -/
def Obligations.QueueLosesFramesOnlyByCommand : Prop :=
  ∀ s t : State, step s = .next t → s.nextInput.rst = false →
    (∃ a w, s.nextInput.bus = .write a w ∧ addrTarget a = .reg .cmd ∧
      (decode w = .legal .fdPop ∨ decode w = .legal .fdQclear)) ∨
    t.fd.queue = s.fd.queue ∨ ∃ r, t.fd.queue = s.fd.queue ++ [r]

/-- ERR_ILLEGAL, ERR_BUSY and ERR_RANGE are set only by their causes (60_exceptions.md R201 to R203). -/
def Obligations.EngineErrorsOnlyByTheirCauses : Prop :=
  ∀ s t : State, step s = .next t → s.nextInput.rst = false →
    (s.ce.errIllegal = false → t.ce.errIllegal = true →
      ∃ a w e, s.nextInput.bus = .write a w ∧ addrTarget a = .reg .cmd ∧ decode w = .illegal e) ∧
    (s.ce.errBusy = false → t.ce.errBusy = true →
      s.ce.op ≠ none ∧ ∃ a w, s.nextInput.bus = .write a w ∧
        ((addrTarget a = .reg .cmd ∧ ∃ i, decode w = .legal i ∧ i.isCeCommand = true) ∨
          addrTarget a ∈ [.reg .ceCrc, .reg .ceOffset, .reg .ceLength] ∨
          ∃ j, addrTarget a = .dbuf j ∧ j < s.params.dbufBytes)) ∧
    (s.ce.errRange = false → t.ce.errRange = true →
      s.ce.op = none ∧ ∃ a w, s.nextInput.bus = .write a w ∧ addrTarget a = .reg .cmd ∧
        ((decode w = .legal .ceCrc16 ∧ s.params.dbufBytes < s.ce.offset.toNat + s.ce.length.toNat) ∨
          (decode w = .legal .ceValidate ∧ s.params.dbufBytes < s.ce.length.toNat)))

/-- 00_scope.md R8, 41_frame_detector.md R181: the default timeout is the smallest number of cycles that is at least four
bit periods; 50 MHz and 9600 baud give 20834. -/
def Obligations.SilenceDefaultIsFourBitPeriods : Prop :=
  (∀ clk baud n : Nat, 0 < baud → (silenceCycles clk baud ≤ n ↔ 4 * clk ≤ n * baud)) ∧
  silenceCycles 50000000 9600 = 20834
end

