-- ==== Sys2Proof/Laws/State.lean ====
section
/-! SUPPORT. One lemma per field per update: what each named update of the state leaves in each field. Later proofs use
these with `simp` and unfold no update. -/

namespace Sys2Proof.Machine

/-! ### Raising an error -/

@[simp] theorem State.raise_params (e : Err) (s : State) : (s.raise e).params = s.params := rfl

@[simp] theorem State.raise_ce (e : Err) (s : State) : (s.raise e).ce = s.ce.raise e := rfl

@[simp] theorem State.raise_fd (e : Err) (s : State) : (s.raise e).fd = s.fd.raise e := rfl

@[simp] theorem State.raise_intEn (e : Err) (s : State) : (s.raise e).intEn = s.intEn := rfl

@[simp] theorem State.raise_script (e : Err) (s : State) : (s.raise e).script = s.script := rfl

@[simp] theorem State.raise_busRdata (e : Err) (s : State) : (s.raise e).busRdata = s.busRdata := rfl

@[simp] theorem State.raise_edges (e : Err) (s : State) : (s.raise e).edges = s.edges := rfl

/-! ### Replacing the CE -/

@[simp] theorem State.withCe_params (c : Ce) (s : State) : (s.withCe c).params = s.params := rfl

@[simp] theorem State.withCe_ce (c : Ce) (s : State) : (s.withCe c).ce = c := rfl

@[simp] theorem State.withCe_fd (c : Ce) (s : State) : (s.withCe c).fd = s.fd := rfl

@[simp] theorem State.withCe_intEn (c : Ce) (s : State) : (s.withCe c).intEn = s.intEn := rfl

@[simp] theorem State.withCe_script (c : Ce) (s : State) : (s.withCe c).script = s.script := rfl

@[simp] theorem State.withCe_busRdata (c : Ce) (s : State) : (s.withCe c).busRdata = s.busRdata := rfl

@[simp] theorem State.withCe_edges (c : Ce) (s : State) : (s.withCe c).edges = s.edges := rfl

/-! ### Replacing the FD -/

@[simp] theorem State.withFd_params (f : Fd) (s : State) : (s.withFd f).params = s.params := rfl

@[simp] theorem State.withFd_ce (f : Fd) (s : State) : (s.withFd f).ce = s.ce := rfl

@[simp] theorem State.withFd_fd (f : Fd) (s : State) : (s.withFd f).fd = f := rfl

@[simp] theorem State.withFd_intEn (f : Fd) (s : State) : (s.withFd f).intEn = s.intEn := rfl

@[simp] theorem State.withFd_script (f : Fd) (s : State) : (s.withFd f).script = s.script := rfl

@[simp] theorem State.withFd_busRdata (f : Fd) (s : State) : (s.withFd f).busRdata = s.busRdata := rfl

@[simp] theorem State.withFd_edges (f : Fd) (s : State) : (s.withFd f).edges = s.edges := rfl

/-! ### Starting a block operation -/

@[simp] theorem startOp_params (k : CeKind) (s : State) : (startOp k s).params = s.params := rfl

@[simp] theorem startOp_fd (k : CeKind) (s : State) : (startOp k s).fd = s.fd := rfl

@[simp] theorem startOp_intEn (k : CeKind) (s : State) : (startOp k s).intEn = s.intEn := rfl

@[simp] theorem startOp_script (k : CeKind) (s : State) : (startOp k s).script = s.script := rfl

@[simp] theorem startOp_busRdata (k : CeKind) (s : State) : (startOp k s).busRdata = s.busRdata := rfl

@[simp] theorem startOp_edges (k : CeKind) (s : State) : (startOp k s).edges = s.edges := rfl

/-! ### The CE of a started operation -/

@[simp] theorem startOp_ce_crc (k : CeKind) (s : State) : ((startOp k s).ce).crc = s.ce.crc := rfl

@[simp] theorem startOp_ce_offset (k : CeKind) (s : State) : ((startOp k s).ce).offset = s.ce.offset := rfl

@[simp] theorem startOp_ce_length (k : CeKind) (s : State) : ((startOp k s).ce).length = s.ce.length := rfl

@[simp] theorem startOp_ce_op (k : CeKind) (s : State) : ((startOp k s).ce).op = some { kind := k, snap := s.ce.dbuf, cursor := 0, work := 0xFFFF, wait := Config.ceExtraLatency s.edges } := rfl

@[simp] theorem startOp_ce_done (k : CeKind) (s : State) : ((startOp k s).ce).done = s.ce.done := rfl

@[simp] theorem startOp_ce_vreason (k : CeKind) (s : State) : ((startOp k s).ce).vreason = s.ce.vreason := rfl

@[simp] theorem startOp_ce_errIllegal (k : CeKind) (s : State) : ((startOp k s).ce).errIllegal = s.ce.errIllegal := rfl

@[simp] theorem startOp_ce_errBusy (k : CeKind) (s : State) : ((startOp k s).ce).errBusy = s.ce.errBusy := rfl

@[simp] theorem startOp_ce_errRange (k : CeKind) (s : State) : ((startOp k s).ce).errRange = s.ce.errRange := rfl

@[simp] theorem startOp_ce_dbuf (k : CeKind) (s : State) : ((startOp k s).ce).dbuf = s.ce.dbuf := rfl

@[simp] theorem startOp_ce_epoch (k : CeKind) (s : State) : ((startOp k s).ce).epoch = s.ce.epoch := rfl

/-! ### Reset -/

@[simp] theorem State.resetBlock_params (s : State) : (s.resetBlock).params = s.params := rfl

@[simp] theorem State.resetBlock_ce (s : State) : (s.resetBlock).ce = Ce.reset s.edges := rfl

@[simp] theorem State.resetBlock_fd (s : State) : (s.resetBlock).fd = Fd.reset s.params := rfl

@[simp] theorem State.resetBlock_intEn (s : State) : (s.resetBlock).intEn = 0 := rfl

@[simp] theorem State.resetBlock_script (s : State) : (s.resetBlock).script = s.script := rfl

@[simp] theorem State.resetBlock_busRdata (s : State) : (s.resetBlock).busRdata = s.busRdata := rfl

@[simp] theorem State.resetBlock_edges (s : State) : (s.resetBlock).edges = s.edges := rfl

/-! ### The start of an edge -/

@[simp] theorem State.beginEdge_params (s : State) : (s.beginEdge).params = s.params := rfl

@[simp] theorem State.beginEdge_ce (s : State) : (s.beginEdge).ce = s.ce := rfl

@[simp] theorem State.beginEdge_fd (s : State) : (s.beginEdge).fd = s.fd := rfl

@[simp] theorem State.beginEdge_intEn (s : State) : (s.beginEdge).intEn = s.intEn := rfl

@[simp] theorem State.beginEdge_script (s : State) : (s.beginEdge).script = s.nextScript := rfl

@[simp] theorem State.beginEdge_busRdata (s : State) : (s.beginEdge).busRdata = s.readData s.nextInput.bus := rfl

@[simp] theorem State.beginEdge_edges (s : State) : (s.beginEdge).edges = s.edges + 1 := rfl

/-! ### The FD phase -/

@[simp] theorem fdPhase_params (e : EdgeInput) (s : State) : (fdPhase e s).params = s.params := rfl

@[simp] theorem fdPhase_ce (e : EdgeInput) (s : State) : (fdPhase e s).ce = s.ce := rfl

@[simp] theorem fdPhase_fd (e : EdgeInput) (s : State) : (fdPhase e s).fd = s.fd.step s.params e := rfl

@[simp] theorem fdPhase_intEn (e : EdgeInput) (s : State) : (fdPhase e s).intEn = s.intEn := rfl

@[simp] theorem fdPhase_script (e : EdgeInput) (s : State) : (fdPhase e s).script = s.script := rfl

@[simp] theorem fdPhase_busRdata (e : EdgeInput) (s : State) : (fdPhase e s).busRdata = s.busRdata := rfl

@[simp] theorem fdPhase_edges (e : EdgeInput) (s : State) : (fdPhase e s).edges = s.edges := rfl

/-! ### The CE phase -/

@[simp] theorem cePhase_params (b : Bool) (s : State) : (cePhase b s).params = s.params := by cases b <;> rfl

@[simp] theorem cePhase_ce (b : Bool) (s : State) : (cePhase b s).ce = if b then s.ce.progress (Config.ceStride s.edges) else s.ce := by cases b <;> rfl

@[simp] theorem cePhase_fd (b : Bool) (s : State) : (cePhase b s).fd = s.fd := by cases b <;> rfl

@[simp] theorem cePhase_intEn (b : Bool) (s : State) : (cePhase b s).intEn = s.intEn := by cases b <;> rfl

@[simp] theorem cePhase_script (b : Bool) (s : State) : (cePhase b s).script = s.script := by cases b <;> rfl

@[simp] theorem cePhase_busRdata (b : Bool) (s : State) : (cePhase b s).busRdata = s.busRdata := by cases b <;> rfl

@[simp] theorem cePhase_edges (b : Bool) (s : State) : (cePhase b s).edges = s.edges := by cases b <;> rfl

/-! ### A command as the next cycle -/

@[simp] theorem State.withCommand_params (w : Word) (s : State) : (s.withCommand w).params = s.params := rfl

@[simp] theorem State.withCommand_ce (w : Word) (s : State) : (s.withCommand w).ce = s.ce := rfl

@[simp] theorem State.withCommand_fd (w : Word) (s : State) : (s.withCommand w).fd = s.fd := rfl

@[simp] theorem State.withCommand_intEn (w : Word) (s : State) : (s.withCommand w).intEn = s.intEn := rfl

@[simp] theorem State.withCommand_script (w : Word) (s : State) : (s.withCommand w).script = cmdCycle w :: s.script := rfl

@[simp] theorem State.withCommand_busRdata (w : Word) (s : State) : (s.withCommand w).busRdata = s.busRdata := rfl

@[simp] theorem State.withCommand_edges (w : Word) (s : State) : (s.withCommand w).edges = s.edges := rfl

/-! ### The CE of a raised error -/

@[simp] theorem Ce.raise_crc (e : Err) (c : Ce) : (c.raise e).crc = c.crc := by cases e <;> simp [Ce.raise]

@[simp] theorem Ce.raise_offset (e : Err) (c : Ce) : (c.raise e).offset = c.offset := by cases e <;> simp [Ce.raise]

@[simp] theorem Ce.raise_length (e : Err) (c : Ce) : (c.raise e).length = c.length := by cases e <;> simp [Ce.raise]

@[simp] theorem Ce.raise_op (e : Err) (c : Ce) : (c.raise e).op = c.op := by cases e <;> simp [Ce.raise]

@[simp] theorem Ce.raise_done (e : Err) (c : Ce) : (c.raise e).done = c.done := by cases e <;> simp [Ce.raise]

@[simp] theorem Ce.raise_vreason (e : Err) (c : Ce) : (c.raise e).vreason = c.vreason := by cases e <;> simp [Ce.raise]

@[simp] theorem Ce.raise_errIllegal (e : Err) (c : Ce) : (c.raise e).errIllegal = (c.errIllegal || e == .illegal) := by cases e <;> simp [Ce.raise]

@[simp] theorem Ce.raise_errBusy (e : Err) (c : Ce) : (c.raise e).errBusy = (c.errBusy || e == .busy) := by cases e <;> simp [Ce.raise]

@[simp] theorem Ce.raise_errRange (e : Err) (c : Ce) : (c.raise e).errRange = (c.errRange || e == .range) := by cases e <;> simp [Ce.raise]

@[simp] theorem Ce.raise_dbuf (e : Err) (c : Ce) : (c.raise e).dbuf = c.dbuf := by cases e <;> simp [Ce.raise]

@[simp] theorem Ce.raise_epoch (e : Err) (c : Ce) : (c.raise e).epoch = c.epoch := by cases e <;> simp [Ce.raise]

/-! ### W1C on CE_STATUS -/

@[simp] theorem Ce.clearFlags_crc (w : Word) (c : Ce) : (c.clearFlags w).crc = c.crc := rfl

@[simp] theorem Ce.clearFlags_offset (w : Word) (c : Ce) : (c.clearFlags w).offset = c.offset := rfl

@[simp] theorem Ce.clearFlags_length (w : Word) (c : Ce) : (c.clearFlags w).length = c.length := rfl

@[simp] theorem Ce.clearFlags_op (w : Word) (c : Ce) : (c.clearFlags w).op = c.op := rfl

@[simp] theorem Ce.clearFlags_done (w : Word) (c : Ce) : (c.clearFlags w).done = (c.done && !w.getLsbD 1) := rfl

@[simp] theorem Ce.clearFlags_vreason (w : Word) (c : Ce) : (c.clearFlags w).vreason = c.vreason := rfl

@[simp] theorem Ce.clearFlags_errIllegal (w : Word) (c : Ce) : (c.clearFlags w).errIllegal = (c.errIllegal && !w.getLsbD 8) := rfl

@[simp] theorem Ce.clearFlags_errBusy (w : Word) (c : Ce) : (c.clearFlags w).errBusy = (c.errBusy && !w.getLsbD 9) := rfl

@[simp] theorem Ce.clearFlags_errRange (w : Word) (c : Ce) : (c.clearFlags w).errRange = (c.errRange && !w.getLsbD 10) := rfl

@[simp] theorem Ce.clearFlags_dbuf (w : Word) (c : Ce) : (c.clearFlags w).dbuf = c.dbuf := rfl

@[simp] theorem Ce.clearFlags_epoch (w : Word) (c : Ce) : (c.clearFlags w).epoch = c.epoch := rfl

/-! ### The FD of a raised error -/

@[simp] theorem Fd.raise_en (e : Err) (f : Fd) : (f.raise e).en = f.en := by cases e <;> simp [Fd.raise]

@[simp] theorem Fd.raise_silence (e : Err) (f : Fd) : (f.raise e).silence = f.silence := by cases e <;> simp [Fd.raise]

@[simp] theorem Fd.raise_asm (e : Err) (f : Fd) : (f.raise e).asm = f.asm := by cases e <;> simp [Fd.raise]

@[simp] theorem Fd.raise_asmOvf (e : Err) (f : Fd) : (f.raise e).asmOvf = f.asmOvf := by cases e <;> simp [Fd.raise]

@[simp] theorem Fd.raise_silCnt (e : Err) (f : Fd) : (f.raise e).silCnt = f.silCnt := by cases e <;> simp [Fd.raise]

@[simp] theorem Fd.raise_queue (e : Err) (f : Fd) : (f.raise e).queue = f.queue := by cases e <;> simp [Fd.raise]

@[simp] theorem Fd.raise_errOvf (e : Err) (f : Fd) : (f.raise e).errOvf = (f.errOvf || e == .ovf) := by cases e <;> simp [Fd.raise]

@[simp] theorem Fd.raise_errQovr (e : Err) (f : Fd) : (f.raise e).errQovr = (f.errQovr || e == .qovr) := by cases e <;> simp [Fd.raise]

/-! ### W1C on FD_STATUS -/

@[simp] theorem Fd.clearFlags_en (w : Word) (f : Fd) : (f.clearFlags w).en = f.en := rfl

@[simp] theorem Fd.clearFlags_silence (w : Word) (f : Fd) : (f.clearFlags w).silence = f.silence := rfl

@[simp] theorem Fd.clearFlags_asm (w : Word) (f : Fd) : (f.clearFlags w).asm = f.asm := rfl

@[simp] theorem Fd.clearFlags_asmOvf (w : Word) (f : Fd) : (f.clearFlags w).asmOvf = f.asmOvf := rfl

@[simp] theorem Fd.clearFlags_silCnt (w : Word) (f : Fd) : (f.clearFlags w).silCnt = f.silCnt := rfl

@[simp] theorem Fd.clearFlags_queue (w : Word) (f : Fd) : (f.clearFlags w).queue = f.queue := rfl

@[simp] theorem Fd.clearFlags_errOvf (w : Word) (f : Fd) : (f.clearFlags w).errOvf = (f.errOvf && !w.getLsbD 8) := rfl

@[simp] theorem Fd.clearFlags_errQovr (w : Word) (f : Fd) : (f.clearFlags w).errQovr = (f.errQovr && !w.getLsbD 9) := rfl

/-! ### Emptying the assembling buffer -/

@[simp] theorem Fd.dropAsm_en (f : Fd) : (f.dropAsm).en = f.en := rfl

@[simp] theorem Fd.dropAsm_silence (f : Fd) : (f.dropAsm).silence = f.silence := rfl

@[simp] theorem Fd.dropAsm_asm (f : Fd) : (f.dropAsm).asm = [] := rfl

@[simp] theorem Fd.dropAsm_asmOvf (f : Fd) : (f.dropAsm).asmOvf = false := rfl

@[simp] theorem Fd.dropAsm_silCnt (f : Fd) : (f.dropAsm).silCnt = 0 := rfl

@[simp] theorem Fd.dropAsm_queue (f : Fd) : (f.dropAsm).queue = f.queue := rfl

@[simp] theorem Fd.dropAsm_errOvf (f : Fd) : (f.dropAsm).errOvf = f.errOvf := rfl

@[simp] theorem Fd.dropAsm_errQovr (f : Fd) : (f.dropAsm).errQovr = f.errQovr := rfl

/-! ### Emitting a frame -/

@[simp] theorem Fd.emit_en (p : Params) (c : Cause) (f : Fd) : (f.emit p c).en = f.en := by
  unfold Fd.emit; split <;> simp [*]

@[simp] theorem Fd.emit_silence (p : Params) (c : Cause) (f : Fd) : (f.emit p c).silence = f.silence := by
  unfold Fd.emit; split <;> simp [*]

@[simp] theorem Fd.emit_asm (p : Params) (c : Cause) (f : Fd) : (f.emit p c).asm = [] := by
  unfold Fd.emit; split <;> simp [*]

@[simp] theorem Fd.emit_asmOvf (p : Params) (c : Cause) (f : Fd) : (f.emit p c).asmOvf = false := by
  unfold Fd.emit; split <;> simp [*]

@[simp] theorem Fd.emit_silCnt (p : Params) (c : Cause) (f : Fd) : (f.emit p c).silCnt = 0 := by
  unfold Fd.emit; split <;> simp [*]

@[simp] theorem Fd.emit_queue (p : Params) (c : Cause) (f : Fd) : (f.emit p c).queue = if f.queue.length < p.qd then f.queue ++ [⟨f.asm, c⟩] else f.queue := by
  unfold Fd.emit; split <;> simp [*]

@[simp] theorem Fd.emit_errOvf (p : Params) (c : Cause) (f : Fd) : (f.emit p c).errOvf = f.errOvf := by
  unfold Fd.emit; split <;> simp [*]

@[simp] theorem Fd.emit_errQovr (p : Params) (c : Cause) (f : Fd) : (f.emit p c).errQovr = (f.errQovr || !decide (f.queue.length < p.qd)) := by
  unfold Fd.emit; split <;> simp [*]

end Sys2Proof.Machine
end

