-- ==== Sys2Proof/Laws/Exec.lean ====
section
/-! SUPPORT. What the shared operations and each command can do, said once: later proofs cite these and unfold neither
`exec` nor the meanings. -/

namespace Sys2Proof.Machine

/-- BUSY in terms of ce_op. -/
theorem Ce.busy_eq_false_iff (c : Ce) : c.busy = false ↔ c.op = none := by
  cases h : c.op <;> simp [Ce.busy, h]

theorem Ce.busy_eq_true_iff (c : Ce) : c.busy = true ↔ c.op ≠ none := by
  cases h : c.op <;> simp [Ce.busy, h]

/-- Refusal while BUSY (20_memory.md R88). -/
theorem unlessBusy_of_busy {s : State} (h : s.ce.op ≠ none) (a : State) :
    unlessBusy s a = { s with ce := { s.ce with errBusy := true } } := by
  simp [unlessBusy, (Ce.busy_eq_true_iff s.ce).2 h, State.raise, Ce.raise, Fd.raise]

/-- No refusal while no operation is in flight (20_memory.md R88). -/
theorem unlessBusy_of_free {s : State} (h : s.ce.op = none) (a : State) : unlessBusy s a = a := by
  simp [unlessBusy, (Ce.busy_eq_false_iff s.ce).2 h]

/-- What raising each error does to the whole state (60_exceptions.md R200). -/
theorem State.raise_illegal (s : State) : s.raise .illegal = { s with ce := { s.ce with errIllegal := true } } := rfl

theorem State.raise_busy (s : State) : s.raise .busy = { s with ce := { s.ce with errBusy := true } } := rfl

theorem State.raise_range (s : State) : s.raise .range = { s with ce := { s.ce with errRange := true } } := rfl

/-- Every command's outcome, said once: refused while BUSY, out of range, or its effect. -/
theorem exec_cases {i : Instr} {s t : State} (h : exec i s = .next t) :
    (i = .nop ∧ t = s) ∨
    (s.ce.op ≠ none ∧ i.isCeCommand = true ∧ t = s.raise .busy) ∨
    (s.ce.op = none ∧ t = s.raise .range ∧
      ((i = .ceCrc16 ∧ s.params.dbufBytes < s.ce.offset.toNat + s.ce.length.toNat) ∨
        (i = .ceValidate ∧ s.params.dbufBytes < s.ce.length.toNat))) ∨
    (s.ce.op = none ∧ i = .ceInit ∧ t = s.withCe { s.ce with crc := 0xFFFF }) ∨
    (s.ce.op = none ∧ ∃ b, i = .ceUpdate b ∧ t = s.withCe { s.ce with crc := crcStep s.ce.crc b }) ∨
    (s.ce.op = none ∧ i = .ceCrc16 ∧ t = startOp (.crc16 s.ce.offset s.ce.length) s ∧
      s.ce.offset.toNat + s.ce.length.toNat ≤ s.params.dbufBytes) ∨
    (s.ce.op = none ∧ i = .ceValidate ∧ t = startOp (.validate s.ce.length) s ∧
      s.ce.length.toNat ≤ s.params.dbufBytes) ∨
    (i = .fdPop ∧ t = s.withFd { s.fd with queue := s.fd.queue.tail }) ∨
    (i = .fdFlush ∧ t = s.withFd s.fd.dropAsm) ∨
    (i = .fdQclear ∧ t = s.withFd { s.fd with queue := [] }) := by
  have ceGate (a : State) (ht : t = unlessBusy s a) :
      (s.ce.op ≠ none ∧ t = s.raise .busy) ∨ (s.ce.op = none ∧ t = a) := by
    cases hop : s.ce.op with
    | none => exact .inr ⟨rfl, ht.trans (unlessBusy_of_free hop a)⟩
    | some op => exact .inl ⟨by simp, ht.trans (unlessBusy_of_busy (by simp [hop]) a)⟩
  cases i with
  | nop => exact .inl ⟨rfl, (Host.Outcome.next.inj h).symm⟩
  | ceInit =>
    rcases ceGate _ (Host.Outcome.next.inj h).symm with ⟨h, ht⟩ | ⟨h, ht⟩
    · simp [h, ht, Instr.isCeCommand]
    · simp [h, ht]
  | ceUpdate b =>
    rcases ceGate _ (Host.Outcome.next.inj h).symm with ⟨h, ht⟩ | ⟨h, ht⟩
    · simp [h, ht, Instr.isCeCommand]
    · simp [h, ht]
  | ceCrc16 =>
    rcases ceGate _ (Host.Outcome.next.inj h).symm with ⟨h, ht⟩ | ⟨h, ht⟩
    · simp [h, ht, Instr.isCeCommand]
    · by_cases hr : s.params.dbufBytes < s.ce.offset.toNat + s.ce.length.toNat
      · rw [if_pos hr] at ht
        simp [h, ht, hr]
      · rw [if_neg hr] at ht
        simp [h, ht, Nat.not_lt.1 hr]
  | ceValidate =>
    rcases ceGate _ (Host.Outcome.next.inj h).symm with ⟨h, ht⟩ | ⟨h, ht⟩
    · simp [h, ht, Instr.isCeCommand]
    · by_cases hr : s.params.dbufBytes < s.ce.length.toNat
      · rw [if_pos hr] at ht
        simp [h, ht, hr]
      · rw [if_neg hr] at ht
        simp [h, ht, Nat.not_lt.1 hr]
  | fdPop => simp [← Host.Outcome.next.inj h]
  | fdFlush => simp [← Host.Outcome.next.inj h]
  | fdQclear => simp [← Host.Outcome.next.inj h]

/-- No command stops, whatever the state (60_exceptions.md R200). -/
theorem exec_isNext (i : Instr) (s : State) : ∃ t, exec i s = .next t := by
  cases i <;> exact ⟨_, rfl⟩

end Sys2Proof.Machine
end

