-- ==== Sys2Proof/Laws/Step.lean ====
section
/-! SUPPORT. What a bus write and a step can do, said once. -/

namespace Sys2Proof.Machine

/-- Every register's address selects that register (10_state.md R32). -/
@[simp] theorem addrTarget_regAddr (r : Reg) : addrTarget (regAddr r) = .reg r := by
  cases r <;> decide

/-- No bus write stops. -/
theorem busWrite_isNext (a : BusAddr) (w : Word) (s : State) : ∃ t, busWrite a w s = .next t := by
  unfold busWrite
  split
  · rename_i r _
    cases r
    case cmd =>
      simp only [writeReg, issue]
      split
      · exact ⟨_, rfl⟩
      · exact exec_isNext _ _
    all_goals exact ⟨_, rfl⟩
  all_goals exact ⟨_, rfl⟩

/-- Step 2 never stops. -/
theorem busPhase_isNext (b : BusAccess) (s : State) : ∃ t, busPhase b s = .next t := by
  cases b with
  | idle => exact ⟨_, rfl⟩
  | read a => exact ⟨_, rfl⟩
  | write a w => exact busWrite_isNext a w s

/-- A step from the inputs of its cycle, without reset: the bus write, the CE, the FD. -/
theorem step_of_busPhase {s m : State} (hrst : s.nextInput.rst = false)
    (hbus : busPhase s.nextInput.bus s.beginEdge = .next m) :
    step s = .next (fdPhase s.nextInput (cePhase s.ce.busy m)) := by
  simp [step, edge, runEdge, hrst, hbus]

/-- A step with `rst` = 1. -/
theorem step_of_reset {s : State} (hrst : s.nextInput.rst = true) : step s = .next s.beginEdge.resetBlock := by
  simp [step, edge, runEdge, hrst]

/-- What a step can do: reset, or the bus write, the CE and the FD in this order (10_state.md R62). -/
theorem step_cases {s t : State} (h : step s = .next t) :
    (s.nextInput.rst = true ∧ t = s.beginEdge.resetBlock) ∨
    (s.nextInput.rst = false ∧ ∃ m, busPhase s.nextInput.bus s.beginEdge = .next m ∧
      t = fdPhase s.nextInput (cePhase s.ce.busy m)) := by
  cases hrst : s.nextInput.rst with
  | true => exact .inl ⟨rfl, (Host.Outcome.next.inj ((step_of_reset hrst).symm.trans h)).symm⟩
  | false =>
    obtain ⟨m, hm⟩ := busPhase_isNext s.nextInput.bus s.beginEdge
    exact .inr ⟨rfl, m, hm, (Host.Outcome.next.inj ((step_of_busPhase hrst hm).symm.trans h)).symm⟩

/-- The inputs of a script whose first entry is a cycle. -/
@[simp] theorem nextInput_of_cycle {s : State} {e : EdgeInput} {rest : List HostStep}
    (h : s.script = .cycle e :: rest) : s.nextInput = e := by
  simp [State.nextInput, h, HostStep.input]

/-- The script after a cycle. -/
@[simp] theorem nextScript_of_cycle {s : State} {e : EdgeInput} {rest : List HostStep}
    (h : s.script = .cycle e :: rest) : s.nextScript = rest := by
  simp [State.nextScript, h]

/-- What a register or window write can do to the state, said once (20_memory.md R85 to R88). -/
theorem busWrite_cases {a : BusAddr} {w : Word} {s t : State} (h : busWrite a w s = .next t) :
    t = s ∨
    (addrTarget a = .reg .cmd ∧ ∃ e, decode w = .illegal e ∧ t = s.raise .illegal) ∨
    (addrTarget a = .reg .cmd ∧ ∃ i, decode w = .legal i ∧ exec i s = .next t) ∨
    (addrTarget a = .reg .ceStatus ∧ t = s.withCe (s.ce.clearFlags w)) ∨
    (s.ce.op ≠ none ∧ t = s.raise .busy ∧
      (addrTarget a ∈ [.reg .ceCrc, .reg .ceOffset, .reg .ceLength] ∨
        ∃ j, addrTarget a = .dbuf j ∧ j < s.params.dbufBytes)) ∨
    (s.ce.op = none ∧ addrTarget a = .reg .ceCrc ∧ t = s.withCe { s.ce with crc := loHalf w }) ∨
    (s.ce.op = none ∧ addrTarget a = .reg .ceOffset ∧ t = s.withCe { s.ce with offset := loHalf w }) ∨
    (s.ce.op = none ∧ addrTarget a = .reg .ceLength ∧ t = s.withCe { s.ce with length := loHalf w }) ∨
    (addrTarget a = .reg .intEn ∧ t = { s with intEn := w.extractLsb' 0 3 }) ∨
    (addrTarget a = .reg .fdCtrl ∧ t = s.withFd { s.fd with en := w.getLsbD 0 }) ∨
    (addrTarget a = .reg .fdSilence ∧ t = s.withFd { s.fd with silence := w }) ∨
    (addrTarget a = .reg .fdStatus ∧ t = s.withFd (s.fd.clearFlags w)) ∨
    (s.ce.op = none ∧ ∃ j, addrTarget a = .dbuf j ∧ j < s.params.dbufBytes ∧
      t = s.withCe { s.ce with dbuf := storeLanes s.ce.dbuf j w }) := by
  have gate (b : State) (ht : unlessBusy s b = t) : (s.ce.op ≠ none ∧ t = s.raise .busy) ∨ (s.ce.op = none ∧ t = b) := by
    cases hop : s.ce.op with
    | none => exact .inr ⟨rfl, ht.symm.trans (unlessBusy_of_free hop b)⟩
    | some op => exact .inl ⟨by simp, ht.symm.trans (unlessBusy_of_busy (by simp [hop]) b)⟩
  cases ha : addrTarget a with
  | unmapped => simp_all [busWrite]
  | frame j => simp_all [busWrite]
  | dbuf j =>
    simp only [busWrite, ha, writeDbuf] at h
    have h := Host.Outcome.next.inj h
    by_cases hj : s.params.dbufBytes ≤ j
    · rw [if_pos hj] at h
      exact .inl h.symm
    · rw [if_neg hj] at h
      rcases gate _ h with ⟨hop, ht⟩ | ⟨hop, ht⟩
      · simp [hop, ht, Nat.not_le.1 hj]
      · simp [hop, ht, Nat.not_le.1 hj]
  | reg r =>
    simp only [busWrite, ha] at h
    cases r
    case cmd =>
      simp only [writeReg, issue] at h
      split at h
      · rename_i e he
        simp [he, (Host.Outcome.next.inj h).symm]
      · rename_i i hi
        simp [hi, h]
    case ceCrc =>
      rcases gate _ (Host.Outcome.next.inj h) with ⟨hop, ht⟩ | ⟨hop, ht⟩ <;> simp [hop, ht]
    case ceOffset =>
      rcases gate _ (Host.Outcome.next.inj h) with ⟨hop, ht⟩ | ⟨hop, ht⟩ <;> simp [hop, ht]
    case ceLength =>
      rcases gate _ (Host.Outcome.next.inj h) with ⟨hop, ht⟩ | ⟨hop, ht⟩ <;> simp [hop, ht]
    all_goals simp [← Host.Outcome.next.inj h]

end Sys2Proof.Machine
end

