-- ==== Sys2Proof/Laws/Bus.lean ====
section
/-! SUPPORT. Address decoding (20_memory.md R80, R82) and what a bus write leaves alone, said once. -/

namespace Sys2Proof.Machine

/-- The word address is the byte address rounded down to a multiple of 4 (20_memory.md R82). -/
theorem wordAddr_toNat (a : BusAddr) : (wordAddr a).toNat = a.toNat / 4 * 4 := by
  have shifted : wordAddr a = (a >>> 2) <<< 2 := by
    apply BitVec.eq_of_getLsbD_eq
    intro i hi
    have mask : (0x1FFFC : BusAddr).getLsbD i = decide (2 ≤ i ∧ i < 17) := by
      revert i
      decide
    simp only [wordAddr, BitVec.getLsbD_and, BitVec.getLsbD_shiftLeft, BitVec.getLsbD_ushiftRight, mask]
    by_cases h2 : i < 2
    · simp [h2, show ¬ 2 ≤ i by omega]
    · simp [h2, hi, show 2 ≤ i by omega, show 2 + (i - 2) = i by omega]
  rw [shifted]
  have := a.isLt
  simp only [BitVec.toNat_shiftLeft, BitVec.toNat_ushiftRight, Nat.shiftRight_eq_div_pow, Nat.shiftLeft_eq]
  omega

/-- Rounding down twice is rounding down once. -/
@[simp] theorem wordAddr_wordAddr (a : BusAddr) : wordAddr (wordAddr a) = wordAddr a := by
  apply BitVec.eq_of_toNat_eq
  simp only [wordAddr_toNat]
  omega

/-- No register lies at 0x00038 or above (10_state.md R32). -/
theorem regAt_eq_none {a : BusAddr} (h : 0x38 ≤ a.toNat) : regAt a = none := by
  unfold regAt
  rw [List.find?_eq_none]
  intro r _ hr
  rw [← beq_iff_eq.1 hr] at h
  revert h
  cases r <;> decide

/-- The target of an address in the FRAME window. -/
theorem addrTarget_frame {a : BusAddr} (h : 0x4000 ≤ a.toNat) (h' : a.toNat < 0x8000) :
    addrTarget a = .frame (a.toNat / 4 * 4 - 0x4000) := by
  have hw := wordAddr_toNat a
  simp only [addrTarget, regAt_eq_none (a := wordAddr a) (by omega), hw]
  rw [if_pos (by omega)]

/-- The target of an address in the DBUF window. -/
theorem addrTarget_dbuf {a : BusAddr} (h : 0x10000 ≤ a.toNat) : addrTarget a = .dbuf (a.toNat / 4 * 4 - 0x10000) := by
  have hw := wordAddr_toNat a
  simp only [addrTarget, regAt_eq_none (a := wordAddr a) (by omega), hw]
  rw [if_neg (by omega), if_pos (by omega)]

/-- A DBUF-window target is a multiple of 4 (20_memory.md R87). -/
theorem dbuf_target_aligned {a : BusAddr} {j : Nat} (h : addrTarget a = .dbuf j) : j % 4 = 0 := by
  have hw := wordAddr_toNat a
  unfold addrTarget at h
  split at h
  · cases h
  · dsimp only at h
    split at h
    · cases h
    · split at h
      · have := Target.dbuf.inj h
        omega
      · cases h

/-- What no bus write changes: the parameters, the script, the value read, the edge count, and which reset left DBUF's
unwritten bytes. -/
theorem busWrite_keeps {a : BusAddr} {w : Word} {s t : State} (h : busWrite a w s = .next t) :
    t.params = s.params ∧ t.script = s.script ∧ t.busRdata = s.busRdata ∧ t.edges = s.edges ∧
      t.ce.epoch = s.ce.epoch := by
  rcases busWrite_cases h with rfl | ⟨_, _, _, rfl⟩ | ⟨_, i, _, hi⟩ | ⟨_, rfl⟩ | ⟨_, rfl, _⟩ | ⟨_, _, rfl⟩ |
    ⟨_, _, rfl⟩ | ⟨_, _, rfl⟩ | ⟨_, rfl⟩ | ⟨_, rfl⟩ | ⟨_, rfl⟩ | ⟨_, rfl⟩ | ⟨_, j, _, _, rfl⟩
  case inr.inr.inl =>
    rcases exec_cases hi with ⟨rfl, rfl⟩ | ⟨_, _, rfl⟩ | ⟨_, rfl, _⟩ | ⟨_, rfl, rfl⟩ | ⟨_, b, rfl, rfl⟩ |
      ⟨_, rfl, rfl, _⟩ | ⟨_, rfl, rfl, _⟩ | ⟨rfl, rfl⟩ | ⟨rfl, rfl⟩ | ⟨rfl, rfl⟩ <;> simp
  all_goals simp

/-- While an operation is in flight, a bus write leaves it, its operands, DBUF and the results alone (20_memory.md R88,
30_encoding.md R118). -/
theorem busWrite_keeps_inFlight {a : BusAddr} {w : Word} {s t : State} (h : busWrite a w s = .next t)
    (hop : s.ce.op ≠ none) :
    t.ce.op = s.ce.op ∧ t.ce.crc = s.ce.crc ∧ t.ce.vreason = s.ce.vreason ∧ t.ce.offset = s.ce.offset ∧
      t.ce.length = s.ce.length ∧ t.ce.dbuf = s.ce.dbuf ∧ t.ce.epoch = s.ce.epoch := by
  rcases busWrite_cases h with rfl | ⟨_, _, _, rfl⟩ | ⟨_, i, _, hi⟩ | ⟨_, rfl⟩ | ⟨_, rfl, _⟩ | ⟨hn, _, rfl⟩ |
    ⟨hn, _, rfl⟩ | ⟨hn, _, rfl⟩ | ⟨_, rfl⟩ | ⟨_, rfl⟩ | ⟨_, rfl⟩ | ⟨_, rfl⟩ | ⟨hn, j, _, _, rfl⟩
  case inr.inr.inl =>
    rcases exec_cases hi with ⟨rfl, rfl⟩ | ⟨_, _, rfl⟩ | ⟨hn, rfl, _⟩ | ⟨hn, rfl, rfl⟩ | ⟨hn, b, rfl, rfl⟩ |
      ⟨hn, rfl, rfl, _⟩ | ⟨hn, rfl, rfl, _⟩ | ⟨rfl, rfl⟩ | ⟨rfl, rfl⟩ | ⟨rfl, rfl⟩
    case inr.inr.inr.inl | inr.inr.inr.inr.inl | inr.inr.inr.inr.inr.inl | inr.inr.inr.inr.inr.inr.inl =>
      exact absurd hn hop
    all_goals simp
  all_goals first | exact absurd hn hop | simp

/-- The phases of a step keep what `busWrite_keeps` says, for every bus access. -/
theorem busPhase_keeps {b : BusAccess} {s t : State} (h : busPhase b s = .next t) :
    t.params = s.params ∧ t.script = s.script ∧ t.busRdata = s.busRdata ∧ t.edges = s.edges ∧
      t.ce.epoch = s.ce.epoch := by
  cases b with
  | idle => cases h; simp
  | read a => cases h; simp
  | write a w => exact busWrite_keeps h

/-- Whatever the bus access, an operation in flight stays (20_memory.md R88). -/
theorem busPhase_keeps_inFlight {b : BusAccess} {s t : State} (h : busPhase b s = .next t) (hop : s.ce.op ≠ none) :
    t.ce.op = s.ce.op ∧ t.ce.crc = s.ce.crc ∧ t.ce.vreason = s.ce.vreason ∧ t.ce.offset = s.ce.offset ∧
      t.ce.length = s.ce.length ∧ t.ce.dbuf = s.ce.dbuf ∧ t.ce.epoch = s.ce.epoch := by
  cases b with
  | idle => cases h; simp
  | read a => cases h; simp
  | write a w => exact busWrite_keeps_inFlight h hop

end Sys2Proof.Machine
end

