-- ==== Sys2Proof/Laws/Crc.lean ====
section
/-! SUPPORT. The laws of the CRC: how it runs over a sequence, and that a step is linear over XOR (40_crc_engine.md R130,
R132, R150). -/

namespace Sys2Proof.Machine

/-- The CRC depends only on the bytes it reads. -/
theorem crc16_congr {f g : Nat → Byte} {n off : Nat} (h : ∀ i, i < n → f (off + i) = g (off + i)) :
    crc16 f n off = crc16 g n off := by
  induction n with
  | zero => rfl
  | succ n ih => simp only [crc16, ih (fun i hi => h i (by omega)), h n (by omega)]

/-- The CRC of a sequence with one byte more (40_crc_engine.md R140). -/
theorem crcOf_snoc (l : List Byte) (b : Byte) : crcOf (l ++ [b]) = crcStep (crcOf l) b := by
  unfold crcOf
  rw [List.length_append, List.length_singleton, crc16]
  congr 1
  · exact crc16_congr (fun i hi => by simp [byteAt, List.getElem?_append_left hi])
  · simp [byteAt]

/-- The CRC of the empty sequence is the initial value. -/
@[simp] theorem crcOf_nil : crcOf [] = 0xFFFF := rfl

/-- The CRC of a sequence's first bytes is the CRC of that beginning. -/
theorem crc16_take (l : List Byte) {n : Nat} (h : n ≤ l.length) : crc16 (byteAt l) n 0 = crcOf (l.take n) := by
  unfold crcOf
  rw [List.length_take, Nat.min_eq_left h]
  refine crc16_congr (fun i hi => ?_)
  simp [byteAt, List.getElem?_take_of_lt hi]

/-- The frame check depends only on the bytes of the frame. -/
theorem checkFrame_congr {f g : Nat → Byte} {n : Nat} (h : 6 ≤ n → ∀ i, i < n → f i = g i) :
    checkFrame f n = checkFrame g n := by
  unfold checkFrame
  by_cases hn : n < 6
  · simp [hn]
  · have h := h (by omega)
    simp only [hn, if_false, h 0 (by omega), h (n - 2) (by omega), h (n - 1) (by omega),
      crc16_congr (off := 0) (n := n - 2) (f := f) (g := g) (fun i hi => h (0 + i) (by omega))]

/-- The frame check answers one of its four reasons. -/
theorem checkFrame_ne_none (f : Nat → Byte) (n : Nat) : checkFrame f n ≠ .none := by
  unfold checkFrame
  split
  · simp
  · split
    · simp
    · dsimp only
      split <;> simp

/-- A frame of fewer than 6 bytes is not valid (40_crc_engine.md R133). -/
theorem isValidFrame_of_short {l : List Byte} (h : l.length < 6) : isValidFrame l = false := by
  simp [isValidFrame, checkFrame, h]

/-- A word is its two bytes. -/
@[simp] theorem hiByte_append_loByte (c : Half) : hiByte c ++ loByte c = c := by
  apply BitVec.eq_of_getLsbD_eq
  intro i hi
  simp only [hiByte, loByte, BitVec.getLsbD_append, BitVec.getLsbD_extractLsb']
  by_cases h : i < 8
  · simp [h]
  · simp [h, show i - 8 < 8 by omega, show 8 + (i - 8) = i by omega]

@[simp] theorem hiByte_append (a b : Byte) : hiByte (a ++ b) = a := by
  apply BitVec.eq_of_getLsbD_eq
  intro i hi
  rw [hiByte, BitVec.getLsbD_extractLsb', show (a ++ b).getLsbD (8 + i) = _ from BitVec.getLsbD_append]
  simp [hi]

@[simp] theorem loByte_append (a b : Byte) : loByte (a ++ b) = b := by
  apply BitVec.eq_of_getLsbD_eq
  intro i hi
  rw [loByte, BitVec.getLsbD_extractLsb', show (a ++ b).getLsbD (0 + i) = _ from BitVec.getLsbD_append]
  simp [hi]

/-- One turn of the loop is linear (40_crc_engine.md R150). -/
theorem crcBit_xor (a b : Half) : crcBit (a ^^^ b) = crcBit a ^^^ crcBit b := by
  unfold crcBit
  simp only [BitVec.getLsbD_xor, BitVec.ushiftRight_xor_distrib]
  cases a.getLsbD 0 <;> cases b.getLsbD 0 <;> simp <;> apply BitVec.eq_of_getLsbD_eq <;> intro i _ <;>
    simp only [BitVec.getLsbD_xor] <;> cases BitVec.getLsbD (a >>> 1) i <;> cases BitVec.getLsbD (b >>> 1) i <;> simp

/-- So are `n` turns. -/
theorem crcBits_xor (n : Nat) (a b : Half) : crcBits n (a ^^^ b) = crcBits n a ^^^ crcBits n b := by
  induction n generalizing a b with
  | zero => rfl
  | succ n ih => simp only [crcBits, crcBit_xor, ih]

end Sys2Proof.Machine
end

