-- ==== Sys2Proof/Laws/Decode.lean ====
section
/-! SUPPORT. The fields of a command word and the decoder on them. -/

namespace Sys2Proof

/-- A command word is the three fields it holds (30_encoding.md R111). -/
@[simp] theorem CmdFields.toWord_ofWord (w : Word) : (CmdFields.ofWord w).toWord = w := by
  apply BitVec.eq_of_getLsbD_eq
  intro i hi
  simp only [CmdFields.ofWord, CmdFields.toWord, BitVec.getLsbD_extractLsb', BitVec.getLsbD_append]
  by_cases h : i < 8
  · simp [h]
  · by_cases h' : i < 16
    · simp [h, show i - 8 < 8 by omega, show 8 + (i - 8) = i by omega]
    · simp [h, show ¬ (i - 8 < 8) by omega, show i - 8 - 8 < 16 by omega, show 16 + (i - 8 - 8) = i by omega]

/-- The fields of the word of three fields are those fields. -/
@[simp] theorem CmdFields.ofWord_toWord (f : CmdFields) : CmdFields.ofWord f.toWord = f := by
  obtain ⟨r, d, o⟩ := f
  simp only [CmdFields.ofWord, CmdFields.toWord, CmdFields.mk.injEq]
  refine ⟨?_, ?_, ?_⟩ <;> apply BitVec.eq_of_getLsbD_eq <;> intro i hi <;>
    simp only [BitVec.getLsbD_extractLsb', BitVec.getLsbD_append]
  · simp only [hi, decide_true, Bool.true_and, show ¬ (16 + i < 8) by omega, show ¬ (16 + i - 8 < 8) by omega,
      if_false, show 16 + i - 8 - 8 = i by omega]
  · simp only [hi, decide_true, Bool.true_and, show ¬ (8 + i < 8) by omega, if_true,
      if_false, show 8 + i - 8 = i by omega]
  · simp only [hi, decide_true, Bool.true_and, Nat.zero_add, if_true]

/-- A command's word is the three fields the encoder gives it. -/
theorem encode_fields (i : Instr) : CmdFields.ofWord (encode i) = i.fields := by simp [encode]

/-- The operand-less commands' operation codes are not CE_UPDATE's, and are the ones their fields hold. -/
theorem plainOpcodes_lookup {o : Byte} {i : Instr} (h : plainOpcodes.lookup o = some i) : i.fields = ⟨0, 0, o⟩ := by
  simp only [plainOpcodes, List.lookup] at h
  repeat' split at h
  all_goals simp_all [Instr.fields]
  all_goals (try (subst h; rfl))

/-- A legal word's fields are its command's. -/
theorem fields_of_decodeFields {f : CmdFields} {i : Instr} (h : decodeFields f = .legal i) : i.fields = f := by
  obtain ⟨r, d, o⟩ := f
  unfold decodeFields at h
  split at h
  · cases h
  · split at h
    · cases h
      simp_all [Instr.fields]
    · split at h
      · cases h
      · split at h
        · cases h
        · rename_i hl _
          cases h
          rw [plainOpcodes_lookup hl]
          simp_all

/-- A word with a plain command's operation code that is not that command's word is illegal (30_encoding.md R114). -/
theorem decode_illegal_of_extra_bits {w : Word} {o : Byte} (ho : w.extractLsb' 0 8 = o) (hplain : o ≠ 0x02)
    (hne : w ≠ CmdFields.toWord ⟨0, 0, o⟩) : ∃ e, decode w = .illegal e := by
  cases h : decode w with
  | illegal e => exact ⟨e, rfl⟩
  | legal i =>
    have hf : i.fields = CmdFields.ofWord w := fields_of_decodeFields h
    have hopc : i.fields.opc = o := by
      rw [hf]
      exact ho
    have hshape : i.fields.opc = 0x02 ∨ i.fields = ⟨0, 0, i.fields.opc⟩ := by cases i <;> simp [Instr.fields]
    rcases hshape with h' | h'
    · exact absurd (hopc.symm.trans h') hplain
    · rw [hopc] at h'
      exact absurd (by rw [← h', hf, CmdFields.toWord_ofWord]) hne

end Sys2Proof
end

