-- ==== Sys2Proof/Laws/Detector.lean ====
section
/-! SUPPORT. What a step of the Frame Boundary Detector can do, said once (41_frame_detector.md R160 to R172). -/

namespace Sys2Proof.Machine

/-- The four cases of a step with EN = 1, and the one with EN = 0. -/
theorem Fd.step_of_disabled (p : Params) (e : EdgeInput) {f : Fd} (h : f.en = false) : f.step p e = f.dropAsm := by
  simp [Fd.step, h]

theorem Fd.step_of_byte (p : Params) {e : EdgeInput} {f : Fd} (h : f.en = true) (hv : e.rxValid = true) :
    f.step p e = f.receive p e.rxData := by
  simp [Fd.step, h, hv]

theorem Fd.step_of_active (p : Params) {e : EdgeInput} {f : Fd} (h : f.en = true) (hv : e.rxValid = false)
    (ha : e.rxActive = true) : f.step p e = { f with silCnt := 0 } := by
  simp [Fd.step, h, hv, ha]

theorem Fd.step_of_silent (p : Params) {e : EdgeInput} {f : Fd} (h : f.en = true) (hv : e.rxValid = false)
    (ha : e.rxActive = false) : f.step p e = f.silent p := by
  simp [Fd.step, h, hv, ha]

/-- The timeout test (R170). -/
theorem Fd.timeout_iff (f : Fd) :
    f.timeout = true ↔ f.silence ≠ 0 ∧ f.silence.toNat ≤ f.silCnt.toNat + 1 := by
  simp [Fd.timeout]

/-- A step changes neither EN nor FD_SILENCE (R162). -/
@[simp] theorem Fd.step_en (p : Params) (e : EdgeInput) (f : Fd) : (f.step p e).en = f.en := by
  unfold Fd.step Fd.receive Fd.silent
  dsimp only
  repeat' split
  all_goals simp

@[simp] theorem Fd.step_silence (p : Params) (e : EdgeInput) (f : Fd) : (f.step p e).silence = f.silence := by
  unfold Fd.step Fd.receive Fd.silent
  dsimp only
  repeat' split
  all_goals simp

/-- A step keeps the queue's frames in order and adds at most one, at its end (R172, R173). -/
theorem Fd.step_queue (p : Params) (e : EdgeInput) (f : Fd) :
    (f.step p e).queue = f.queue ∨ ∃ r, (f.step p e).queue = f.queue ++ [r] := by
  have emitted (c : Cause) (g : Fd) (hg : g.queue = f.queue) :
      (g.emit p c).queue = f.queue ∨ ∃ r, (g.emit p c).queue = f.queue ++ [r] := by
    rw [Fd.emit_queue, hg]
    split
    · exact .inr ⟨_, rfl⟩
    · exact .inl rfl
  unfold Fd.step Fd.receive Fd.silent
  dsimp only
  repeat' split
  all_goals first | exact emitted _ _ rfl | exact .inl rfl

/-- A step clears neither error flag (60_exceptions.md R205). -/
theorem Fd.step_keeps_errors (p : Params) (e : EdgeInput) (f : Fd) :
    (f.errOvf = true → (f.step p e).errOvf = true) ∧ (f.errQovr = true → (f.step p e).errQovr = true) := by
  unfold Fd.step Fd.receive Fd.silent
  dsimp only
  repeat' split
  all_goals constructor <;> intro h <;> simp [h]

end Sys2Proof.Machine
end

