-- ==== Sys2Proof/Laws/Engine.lean ====
section
/-! SUPPORT. The CRC Engine's progress, said once (40_crc_engine.md R143, R148, R149). -/

namespace Sys2Proof.Machine

/-- Moving the hidden cursor changes neither the operation, nor its snapshot, nor how long it waits. -/
@[simp] theorem InFlight.advance_kind (epoch n : Nat) (op : InFlight) :
    (InFlight.advance epoch n op).kind = op.kind := by
  induction n generalizing op with
  | zero => rfl
  | succ n ih => unfold InFlight.advance; split <;> simp [ih]

@[simp] theorem InFlight.advance_snap (epoch n : Nat) (op : InFlight) :
    (InFlight.advance epoch n op).snap = op.snap := by
  induction n generalizing op with
  | zero => rfl
  | succ n ih => unfold InFlight.advance; split <;> simp [ih]

@[simp] theorem InFlight.advance_wait (epoch n : Nat) (op : InFlight) :
    (InFlight.advance epoch n op).wait = op.wait := by
  induction n generalizing op with
  | zero => rfl
  | succ n ih => unfold InFlight.advance; split <;> simp [ih]

/-- Completion leaves no operation in flight and sets DONE. -/
@[simp] theorem Ce.complete_op (op : InFlight) (c : Ce) : (c.complete op).op = none := by
  unfold Ce.complete
  split <;> rfl

@[simp] theorem Ce.complete_done (op : InFlight) (c : Ce) : (c.complete op).done = true := by
  unfold Ce.complete
  split <;> rfl

@[simp] theorem Ce.complete_epoch (op : InFlight) (c : Ce) : (c.complete op).epoch = c.epoch := by
  unfold Ce.complete
  split <;> rfl

@[simp] theorem Ce.complete_dbuf (op : InFlight) (c : Ce) : (c.complete op).dbuf = c.dbuf := by
  unfold Ce.complete
  split <;> rfl

@[simp] theorem Ce.complete_offset (op : InFlight) (c : Ce) : (c.complete op).offset = c.offset := by
  unfold Ce.complete
  split <;> rfl

@[simp] theorem Ce.complete_length (op : InFlight) (c : Ce) : (c.complete op).length = c.length := by
  unfold Ce.complete
  split <;> rfl

/-- What one edge of progress can do (R149): nothing without an operation, completion with no edge left to wait, else
the operation waits one edge less and nothing but its hidden cursor and accumulator moves. -/
theorem Ce.progress_of_none {c : Ce} (h : c.op = none) (stride : Nat) : c.progress stride = c := by
  simp [Ce.progress, h]

theorem Ce.progress_of_done {c : Ce} {op : InFlight} (h : c.op = some op) (hw : op.wait = 0) (stride : Nat) :
    c.progress stride = c.complete op := by
  simp [Ce.progress, h, hw]

theorem Ce.progress_of_wait {c : Ce} {op : InFlight} (h : c.op = some op) {n : Nat} (hw : op.wait = n + 1)
    (stride : Nat) : ∃ op' : InFlight, op'.kind = op.kind ∧ op'.snap = op.snap ∧ op'.wait = n ∧
      c.progress stride = { c with op := some op' } := by
  refine ⟨{ InFlight.advance c.epoch stride op with wait := n }, by simp, by simp, rfl, ?_⟩
  simp [Ce.progress, h, hw]

@[simp] theorem Ce.progress_epoch (stride : Nat) (c : Ce) : (c.progress stride).epoch = c.epoch := by
  unfold Ce.progress
  split
  · rfl
  · split
    · simp
    · rfl

@[simp] theorem Ce.progress_errors (stride : Nat) (c : Ce) :
    (c.progress stride).errIllegal = c.errIllegal ∧ (c.progress stride).errBusy = c.errBusy ∧
      (c.progress stride).errRange = c.errRange := by
  unfold Ce.progress
  split
  · simp
  · split
    · unfold Ce.complete
      split <;> simp
    · simp

/-- The CE only reads its operands and DBUF (10_state.md R34, R35, R51). -/
@[simp] theorem Ce.progress_operands (stride : Nat) (c : Ce) :
    (c.progress stride).offset = c.offset ∧ (c.progress stride).length = c.length ∧
      (c.progress stride).dbuf = c.dbuf := by
  unfold Ce.progress
  split
  · simp
  · split <;> simp

end Sys2Proof.Machine
end

