-- ==== Sys2Proof/Laws/Memory.lean ====
section
/-! SUPPORT. The laws of memory: a write is read back, changes nothing else, and keeps the canonical form. -/

namespace Sys2Proof.Machine

/-- Every index of a canonical memory's tail lies above its head's. -/
theorem Memory.wf_cons_iff (a : Nat) (b : Byte) (m : Memory) :
    Memory.wf ((a, b) :: m) ↔ (∀ c ∈ m, a < c.1) ∧ m.wf := by
  simp [Memory.wf, List.pairwise_cons]

theorem Memory.read?_eq_none_of_lt {m : Memory} {i : Nat} (h : ∀ c ∈ m, i < c.1) : m.read? i = none := by
  induction m with
  | nil => rfl
  | cons c m ih =>
    obtain ⟨a, b⟩ := c
    have ha : i < a := h (a, b) (by simp)
    simp [Memory.read?, Nat.ne_of_gt ha, ih (fun c hc => h c (by simp [hc]))]

/-- A write is read back. -/
@[simp] theorem Memory.read?_write_same (m : Memory) (i : Nat) (v : Byte) : (m.write i v).read? i = some v := by
  induction m with
  | nil => simp [Memory.write, Memory.read?]
  | cons c m ih =>
    obtain ⟨a, b⟩ := c
    by_cases hlt : i < a
    · simp [Memory.write, Memory.read?, hlt]
    · by_cases heq : a = i
      · simp [Memory.write, Memory.read?, heq]
      · simp [Memory.write, Memory.read?, hlt, heq, ih]

/-- A write leaves every other index alone. -/
theorem Memory.read?_write_other (m : Memory) {i j : Nat} (v : Byte) (h : j ≠ i) :
    (m.write i v).read? j = m.read? j := by
  induction m with
  | nil => simp [Memory.write, Memory.read?, Ne.symm h]
  | cons c m ih =>
    obtain ⟨a, b⟩ := c
    by_cases hlt : i < a
    · simp [Memory.write, Memory.read?, hlt, Ne.symm h]
    · by_cases heq : a = i
      · subst heq
        simp [Memory.write, Memory.read?, Ne.symm h]
      · simp [Memory.write, Memory.read?, hlt, heq, ih]

/-- The indexes listed after a write are those before it and the one written. -/
theorem Memory.mem_write {m : Memory} {i : Nat} {v : Byte} {c : Host.Cell} (h : c ∈ m.write i v) :
    c ∈ m ∨ c = (i, v) := by
  induction m with
  | nil => simpa [Memory.write] using h
  | cons d m ih =>
    obtain ⟨a, b⟩ := d
    by_cases hlt : i < a
    · simp only [Memory.write, hlt, if_true, List.mem_cons] at h ⊢
      tauto
    · by_cases heq : a = i
      · simp only [Memory.write, heq, lt_irrefl, if_false, if_true, List.mem_cons] at h ⊢
        tauto
      · simp only [Memory.write, hlt, heq, if_false, List.mem_cons] at h ⊢
        rcases h with h | h
        · exact .inl (.inl h)
        · rcases ih h with h | h
          · exact .inl (.inr h)
          · exact .inr h

/-- A write keeps the canonical form. -/
theorem Memory.wf_write {m : Memory} (i : Nat) (v : Byte) (h : m.wf) : (m.write i v).wf := by
  induction m with
  | nil => simp [Memory.write, Memory.wf]
  | cons c m ih =>
    obtain ⟨a, b⟩ := c
    rw [Memory.wf_cons_iff] at h
    by_cases hlt : i < a
    · simp only [Memory.write, hlt, if_true]
      rw [Memory.wf_cons_iff, Memory.wf_cons_iff]
      refine ⟨fun c hc => ?_, h⟩
      rcases List.mem_cons.1 hc with rfl | hc
      · exact hlt
      · exact Nat.lt_trans hlt (h.1 c hc)
    · by_cases heq : a = i
      · subst heq
        simp only [Memory.write, lt_irrefl, if_false, if_true]
        rw [Memory.wf_cons_iff]
        exact h
      · simp only [Memory.write, hlt, heq, if_false]
        rw [Memory.wf_cons_iff]
        refine ⟨fun c hc => ?_, ih h.2⟩
        rcases Memory.mem_write hc with hc | rfl
        · exact h.1 c hc
        · show a < i
          omega

/-- A write below a bound keeps every index below it. -/
theorem Memory.below_write {n : Nat} {m : Memory} {i : Nat} (v : Byte) (h : m.below n) (hi : i < n) :
    (m.write i v).below n := by
  intro c hc
  rcases Memory.mem_write hc with hc | rfl
  · exact h c hc
  · exact hi

/-- A word store keeps the canonical form. -/
theorem storeLanes_wf {m : Memory} (j : Nat) (w : Word) (h : m.wf) : (storeLanes m j w).wf :=
  Memory.wf_write _ _ (Memory.wf_write _ _ (Memory.wf_write _ _ (Memory.wf_write _ _ h)))

/-- A word store inside a bound keeps every index below it. -/
theorem storeLanes_below {n : Nat} {m : Memory} {j : Nat} (w : Word) (h : m.below n) (hj : j + 3 < n) :
    (storeLanes m j w).below n :=
  Memory.below_write _ (Memory.below_write _ (Memory.below_write _ (Memory.below_write _ h (by omega)) (by omega))
    (by omega)) hj

/-- A word store is read back lane by lane. -/
theorem storeLanes_read_inside (m : Memory) (j : Nat) (w : Word) {k : Nat} (hk : k < 4) :
    (storeLanes m j w).read? (j + k) = some (lane w k) := by
  unfold storeLanes
  have hk' : k = 0 ∨ k = 1 ∨ k = 2 ∨ k = 3 := by omega
  rcases hk' with rfl | rfl | rfl | rfl
  · rw [Memory.read?_write_other _ _ (by omega), Memory.read?_write_other _ _ (by omega),
      Memory.read?_write_other _ _ (by omega), Nat.add_zero, Memory.read?_write_same]
  · rw [Memory.read?_write_other _ _ (by omega), Memory.read?_write_other _ _ (by omega), Memory.read?_write_same]
  · rw [Memory.read?_write_other _ _ (by omega), Memory.read?_write_same]
  · rw [Memory.read?_write_same]

/-- A word store changes no byte outside its four. -/
theorem storeLanes_read_outside (m : Memory) (j : Nat) (w : Word) {i : Nat} (hi : i < j ∨ j + 4 ≤ i) :
    (storeLanes m j w).read? i = m.read? i := by
  unfold storeLanes
  rw [Memory.read?_write_other _ _ (by omega), Memory.read?_write_other _ _ (by omega),
    Memory.read?_write_other _ _ (by omega), Memory.read?_write_other _ _ (by omega)]

/-- A written byte reads as written. -/
theorem memByte_of_read? {m : Memory} {i : Nat} {b : Byte} (h : m.read? i = some b) (epoch : Nat) :
    memByte m epoch i = b := by
  simp [memByte, h]

end Sys2Proof.Machine
end

