-- ==== Sys2Proof/Laws/PerInstr.lean ====
section
/-! SUPPORT. Facts about every command as syntax, one lemma per constructor. -/

namespace Sys2Proof.Laws.EncodeWellFormed

/-- The encoder writes only command words that R114's three checks accept (30_encoding.md R111 to R114). -/
def Statement (i : Instr) : Prop := (CmdFields.ofWord (encode i)).wellFormed = true

theorem nop : Statement .nop := by unfold Statement; decide

theorem ceInit : Statement .ceInit := by unfold Statement; decide

theorem ceUpdate (b : Byte) : Statement (.ceUpdate b) := by
  have fields : CmdFields.ofWord (encode (.ceUpdate b)) = ⟨0, b, 2⟩ := by
    revert b
    decide +kernel
  unfold Statement
  rw [fields]
  simp [CmdFields.wellFormed, CmdFields.opcodeDefined, CmdFields.reservedZero, CmdFields.dataZeroUnlessUpdate,
    definedOpcodes]

theorem ceCrc16 : Statement .ceCrc16 := by unfold Statement; decide

theorem ceValidate : Statement .ceValidate := by unfold Statement; decide

theorem fdPop : Statement .fdPop := by unfold Statement; decide

theorem fdFlush : Statement .fdFlush := by unfold Statement; decide

theorem fdQclear : Statement .fdQclear := by unfold Statement; decide

end Sys2Proof.Laws.EncodeWellFormed
end

