-- ==== Sys2Proof/Laws/Run.lean ====
section
/-! SUPPORT. Runs of several edges. -/

namespace Sys2Proof.Machine

@[simp] theorem reaches_zero (s t : State) : Reaches 0 s t ↔ t = s := by
  simp only [Reaches, Host.Core.run]
  constructor
  · intro h
    exact (Host.Outcome.next.inj h).symm
  · rintro rfl
    rfl

/-- A run's first edge. -/
theorem reaches_succ_iff {k : Nat} {s u t : State} (h : step s = .next u) : Reaches (k + 1) s t ↔ Reaches k u t := by
  have run : Sys2Proof.core.run (k + 1) s = Sys2Proof.core.run k u := by
    simp only [Host.Core.run, show Sys2Proof.core.step s = .next u from h]
  simp only [Reaches, run]

/-- One edge, then `k` more. -/
theorem reaches_succ {k : Nat} {s u t : State} (h : step s = .next u) (h' : Reaches k u t) : Reaches (k + 1) s t :=
  (reaches_succ_iff h).2 h'

/-- Runs compose. -/
theorem reaches_trans {j k : Nat} {s u t : State} (h : Reaches j s u) (h' : Reaches k u t) : Reaches (j + k) s t := by
  induction j generalizing s with
  | zero =>
    rw [(reaches_zero s u).1 h] at h'
    rwa [Nat.zero_add]
  | succ j ih =>
    obtain ⟨v, hv⟩ : ∃ v, step s = .next v := by
      cases hr : s.nextInput.rst with
      | true => exact ⟨_, step_of_reset hr⟩
      | false =>
        obtain ⟨m, hm⟩ := busPhase_isNext s.nextInput.bus s.beginEdge
        exact ⟨_, step_of_busPhase hr hm⟩
    rw [Nat.succ_add]
    exact reaches_succ hv (ih ((reaches_succ_iff hv).1 h))

/-- A bus access that is no write to the FD leaves all of the FD for its step (20_memory.md R102, 40_crc_engine.md
R136). -/
theorem busPhase_keeps_fd {b : BusAccess} {s t : State} (h : busPhase b s = .next t) (hb : b.leavesFd = true) :
    t.fd = s.fd := by
  cases b with
  | idle => cases h; rfl
  | read a => cases h; rfl
  | write a w =>
    simp only [BusAccess.leavesFd, Bool.and_eq_true, Bool.not_eq_true'] at hb
    rcases busWrite_cases h with rfl | ⟨_, _, _, rfl⟩ | ⟨hc, i, hd, hi⟩ | ⟨_, rfl⟩ | ⟨_, rfl, _⟩ | ⟨_, _, rfl⟩ |
      ⟨_, _, rfl⟩ | ⟨_, _, rfl⟩ | ⟨_, rfl⟩ | ⟨ha, rfl⟩ | ⟨ha, rfl⟩ | ⟨ha, rfl⟩ | ⟨_, j, _, _, rfl⟩
    case inr.inr.inl =>
      rcases exec_cases hi with ⟨rfl, rfl⟩ | ⟨_, _, rfl⟩ | ⟨_, rfl, _⟩ | ⟨_, rfl, rfl⟩ | ⟨_, b, rfl, rfl⟩ |
        ⟨_, rfl, rfl, _⟩ | ⟨_, rfl, rfl, _⟩ | ⟨rfl, rfl⟩ | ⟨rfl, rfl⟩ | ⟨rfl, rfl⟩ <;>
        first | rfl | (simp only [hc, hd] at hb; exact absurd hb (by decide))
    all_goals first | rfl | (simp only [ha] at hb; exact absurd hb.1 (by decide))

/-- What every edge keeps, moves on or counts. -/
theorem step_keeps {s t : State} (h : step s = .next t) :
    t.params = s.params ∧ t.script = s.nextScript ∧ t.busRdata = s.readData s.nextInput.bus ∧
      t.edges = s.edges + 1 := by
  rcases step_cases h with ⟨_, rfl⟩ | ⟨_, m, hm, rfl⟩
  · simp
  · have hk := busPhase_keeps hm
    simp [hk]

end Sys2Proof.Machine
end

