-- ==== Sys2Proof/Tests/Slice0.lean ====
section
/-! SUPPORT. Named tests. Their expected values come from 95_test_vectors.md (each comment names its vector) or are
written out from the rule it names; the witnesses show that the hypotheses of each statement can hold together. -/

namespace Sys2Proof.Tests

open Sys2Proof Sys2Proof.Machine

/-! ### Helpers -/

/-- Defaults of 00_scope.md R8 with a clock of 50 MHz at 9600 baud (41_frame_detector.md R181). -/
def params : Params := ⟨256, 256, 2, 50000000, 9600, 20834⟩

/-- The state after reset for these parameters (70_reset_and_hazards.md R230). -/
def s0 : State :=
  { params := params, ce := Ce.reset 0, fd := Fd.reset params, intEn := 0, script := [], busRdata := none, edges := 0 }

/-- The set-up of the FD vectors: FD_SILENCE = 5, EN = 1. -/
def fdOn : Fd := { Fd.reset params with en := true, silence := 5 }

/-- A DBUF holding a byte sequence from index 0 on. -/
def dbufOf (l : List Byte) : Memory := l.zipIdx.map (fun c => (c.2, c.1))

/-- `s` with these inputs in its next cycle. -/
def State.withCycle (e : EdgeInput) (s : State) : State := { s with script := [.cycle e] }

/-- A field of the state an outcome gives. -/
def fld {α : Type} (r : Result) (f : State → α) : Option α :=
  match r with
  | .next t => some (f t)
  | .fault _ => none
  | .refused _ => none

/-- The frame of TV1: 01 03 00 00 00 0A C5 CD. -/
def tv1 : List Byte := [0x01, 0x03, 0x00, 0x00, 0x00, 0x0A, 0xC5, 0xCD]

/-- An operation over DBUF[0..8) = TV1 that completes at the next edge. -/
def opOf (k : CeKind) (wait : Nat) : InFlight := ⟨k, dbufOf tv1, 0, 0xFFFF, wait⟩

/-- A state with an operation in flight. -/
def busyState (k : CeKind) (wait : Nat) : State :=
  { s0 with ce := { Ce.reset 0 with dbuf := dbufOf tv1, length := 8, op := some (opOf k wait) } }

/-- A state of the FD with these bytes in assembly and this queue. -/
def fdState (asm : List Byte) (queue : List Frame) : State := { s0 with fd := { fdOn with asm := asm, queue := queue } }

/-- A cycle that receives a byte while the host writes. -/
def writeWithByte (a : BusAddr) (w : Word) (b : Byte) : EdgeInput := { rxCycle b with bus := .write a w }

/-! ### Well-formedness: each check refuses an ill-formed term -/

theorem test_wf_accepts_update : (⟨0, 0x5A, 0x02⟩ : CmdFields).wellFormed = true := by decide

theorem test_wf_refuses_reserved_opcode : (⟨0, 0, 0x05⟩ : CmdFields).wellFormed = false := by decide

theorem test_wf_refuses_reserved_bits : (⟨1, 0, 0x02⟩ : CmdFields).wellFormed = false := by decide

theorem test_wf_refuses_data : (⟨0, 0x5A, 0x01⟩ : CmdFields).wellFormed = false := by decide

theorem test_legal_params : params.legal = true := by decide

theorem test_illegal_params :
    { params with dbufBytes := 10 }.legal = false ∧ { params with dbufBytes := 4 }.legal = false ∧
    { params with dbufBytes := 65540 }.legal = false ∧ { params with fb := 5 }.legal = false ∧
    { params with fb := 16385 }.legal = false ∧ { params with qd := 0 }.legal = false ∧
    { params with qd := 256 }.legal = false ∧ { params with clkHz := 0 }.legal = false ∧
    { params with baudReset := 0 }.legal = false := by decide

theorem test_loaddbuf_alignment :
    (Stmt.loadDbuf 2 [0x01]).wellFormed = false ∧ (Stmt.loadDbuf 65536 [0x01]).wellFormed = false ∧
    (Stmt.loadDbuf 4 [0x01]).wellFormed = true := by decide

/-! ### Decoding: words written out from 30_encoding.md R111 and R113 -/

theorem test_decode_nop : decode 0b00000000000000000000000000000000 = .legal .nop := by decide

theorem test_decode_ceInit : decode 0b00000000000000000000000000000001 = .legal .ceInit := by decide

/-- R121: `CMD CE_UPDATE 0x5A` is the word 0x00005A02. -/
theorem test_decode_ceUpdate : decode 0b00000000000000000101101000000010 = .legal (.ceUpdate 0x5A) := by decide

theorem test_decode_ceCrc16 : decode 0b00000000000000000000000000000011 = .legal .ceCrc16 := by decide

theorem test_decode_ceValidate : decode 0b00000000000000000000000000000100 = .legal .ceValidate := by decide

theorem test_decode_fdPop : decode 0b00000000000000000000000000010000 = .legal .fdPop := by decide

theorem test_decode_fdFlush : decode 0b00000000000000000000000000010001 = .legal .fdFlush := by decide

theorem test_decode_fdQclear : decode 0b00000000000000000000000000010010 = .legal .fdQclear := by decide

/-- TD5, TD9, TD12: one word for each condition of R114. -/
theorem test_decode_illegal :
    decode 0x00000005 = .illegal .opcodeReserved ∧ decode 0x00000100 = .illegal .dataNotZero ∧
    decode 0x00010000 = .illegal .reservedBitsSet := by decide

/-- R121's table of words. -/
theorem test_encode_words :
    [Instr.ceInit, .ceUpdate 0x5A, .ceCrc16, .ceValidate, .fdPop, .fdFlush, .fdQclear, .nop].map encode =
      [0x00000001, 0x00005A02, 0x00000003, 0x00000004, 0x00000010, 0x00000011, 0x00000012, 0x00000000] := by decide

theorem test_decodeTableWord :
    decodeTableWord 32 0x5A02 = some (.ceUpdate 0x5A) ∧ decodeTableWord 8 0x01 = some .ceInit ∧
    decodeTableWord 32 0x05 = none := by decide

/-! ### The CRC -/

/-- TS1, TS2, TS7, TS11. -/
theorem test_crcStep :
    crcStep 0xFFFF 0x00 = 0x40BF ∧ crcStep 0xFFFF 0x01 = 0x807E ∧ crcStep 0x1234 0x56 = 0xE993 ∧
    crcStep 0xABCD 0xCD = 0x00AB := by decide

/-- TC4 and TC8. -/
theorem test_crc16 :
    crcOf [0x31, 0x32, 0x33, 0x34, 0x35, 0x36, 0x37, 0x38, 0x39] = 0x4B37 ∧
    crc16 (byteAt [0xAA, 0x01, 0x03, 0x00, 0x00, 0x00, 0x0A]) 6 1 = 0xCDC5 := by decide +kernel

/-- TV1, TV3, TV5, TV9, TV11. -/
theorem test_checkFrame :
    checkFrame (byteAt tv1) 8 = .ok ∧ checkFrame (byteAt [0x01, 0x83, 0x02, 0xC0, 0xF1]) 5 = .short ∧
    checkFrame (byteAt [0x00, 0x06, 0x00, 0x01, 0x00, 0x03, 0x99, 0xDA]) 8 = .unitId ∧
    checkFrame (byteAt [0x01, 0x03, 0x00, 0x00, 0x00, 0x0A, 0xCD, 0xC5]) 8 = .crc ∧
    checkFrame (byteAt [0x00, 0x03, 0x00, 0x00, 0x00, 0x0A, 0x00, 0x00]) 8 = .unitId := by decide +kernel

/-! ### One step of each command -/

/-- TD1; R120: accepted while BUSY. -/
theorem test_nop :
    fld (step (s0.withFetchWord 32 0x00000000)) (fun t => (t.ce.crc, t.ce.statusWord)) = some (0xFFFF, 0) ∧
    fld (step ((busyState (.crc16 0 6) 3).withFetchWord 32 0)) (fun t => t.ce.statusWord) = some 1 := by
  decide

/-- TE1. -/
theorem test_ceInit :
    fld (step (State.withFetchWord { s0 with ce := { s0.ce with crc := 0x1234 } } 32 0x00000001))
      (fun t => (t.ce.crc, t.ce.statusWord)) = some (0xFFFF, 0) := by decide

/-- TE2. -/
theorem test_ceUpdate :
    fld (step (State.withFetchWord { s0 with ce := { s0.ce with crc := 0x1234 } } 32 0x00005602))
      (fun t => (t.ce.crc, t.ce.statusWord)) = some (0xE993, 0) := by decide

/-- TE11: refused while BUSY. TE18: also at the completing edge, where the result still lands. -/
theorem test_ceUpdate_busy :
    fld (step ((busyState (.crc16 0 6) 3).withFetchWord 32 0x00000102)) (fun t => (t.ce.crc, t.ce.statusWord)) =
      some (0xFFFF, 0x00000201) ∧
    fld (step ((busyState (.crc16 0 6) 0).withFetchWord 32 0x00000102)) (fun t => (t.ce.crc, t.ce.statusWord)) =
      some (0xCDC5, 0x00000202) := by decide +kernel

/-- TE6 (offset 256, length 0 is accepted), TE7 (250 + 7), TE8 (no wrap). -/
theorem test_ceCrc16_range :
    fld (step (State.withFetchWord { s0 with ce := { s0.ce with offset := 256, length := 0 } } 32 3))
      (fun t => t.ce.statusWord) = some 0x00000001 ∧
    fld (step (State.withFetchWord { s0 with ce := { s0.ce with offset := 250, length := 7 } } 32 3))
      (fun t => t.ce.statusWord) = some 0x00000400 ∧
    fld (step (State.withFetchWord { s0 with ce := { s0.ce with offset := 0xFFFF, length := 0xFFFF } } 32 3))
      (fun t => t.ce.statusWord) = some 0x00000400 := by decide

/-- TE3: the completing edge. -/
theorem test_ceCrc16_completes :
    fld (step (busyState (.crc16 0 6) 0)) (fun t => (t.ce.crc, t.ce.statusWord)) = some (0xCDC5, 0x00000002) := by
  decide +kernel

/-- TE9 and TE10. -/
theorem test_ceValidate_range :
    fld (step (State.withFetchWord { s0 with ce := { s0.ce with length := 257 } } 32 4)) (fun t => t.ce.statusWord) =
      some 0x00000400 ∧
    fld (step (State.withFetchWord { s0 with ce := { s0.ce with length := 256 } } 32 4)) (fun t => t.ce.statusWord) =
      some 0x00000001 := by decide

/-- TV1 and TE21: the completing edge of CE_VALIDATE leaves CE_CRC. -/
theorem test_ceValidate_completes :
    fld (step (busyState (.validate 8) 0)) (fun t => (t.ce.crc, t.ce.statusWord)) = some (0xFFFF, 0x00000016) := by
  decide +kernel

/-- TF21 and TF20. -/
theorem test_fdPop :
    fld (step ((fdState [] [⟨tv1, .valid⟩, ⟨[0x01, 0x83, 0x02, 0xC0, 0xF1], .silence⟩]).withFetchWord 32 0x10))
      (fun t => (t.fd.headWord, busRead t 0x04000, busRead t 0x04004)) =
      some (0x80010005, 0xC0028301, 0x000000F1) ∧
    fld (step (s0.withFetchWord 32 0x10)) (fun t => (t.fd.queue, t.ce.statusWord)) = some ([], 0) := by decide

/-- TF13: a POP frees a slot for the frame that completes at the same edge. -/
theorem test_fdPop_with_emit :
    fld (step (State.withCycle (writeWithByte 0x00008 0x10 0xCD)
        (fdState (tv1.take 7) [⟨tv1, .valid⟩, ⟨tv1, .valid⟩])))
      (fun t => (t.fd.queue.length, t.fd.errQovr)) = some (2, false) := by decide +kernel

/-- R176's example, and TF15: the flush comes before the byte of the same cycle. -/
theorem test_fdFlush :
    fld (step ((fdState [0x01, 0x03, 0x00] []).withFetchWord 32 0x11)) (fun t => busRead t 0x0002C) = some 0 ∧
    fld (step (State.withCycle (writeWithByte 0x00008 0x11 0x55) (fdState [0x01, 0x03] []))) (fun t => t.fd.asm) =
      some [0x55] := by decide

/-- R177's example, and TF14. -/
theorem test_fdQclear :
    fld (step ((fdState [] [⟨tv1, .valid⟩, ⟨tv1, .valid⟩]).withFetchWord 32 0x12))
      (fun t => (t.fd.queue.length, t.fd.headWord)) = some (0, 0) ∧
    fld (step (State.withCycle (writeWithByte 0x00008 0x12 0xCD)
        (fdState (tv1.take 7) [⟨tv1, .valid⟩, ⟨tv1, .valid⟩]))) (fun t => t.fd.queue.length) = some 1 := by decide +kernel

/-- TD10 and TE14: an illegal word raises ERR_ILLEGAL, also while BUSY. -/
theorem test_illegal_word :
    fld (step (s0.withFetchWord 32 0x00005A01)) (fun t => (t.ce.crc, t.ce.statusWord)) = some (0xFFFF, 0x00000100) ∧
    fld (step ((busyState (.crc16 0 6) 3).withFetchWord 32 5)) (fun t => t.ce.statusWord) = some 0x00000101 := by
  decide

/-! ### The detector, the bus, reset -/

/-- TF1: the edge of the last byte. -/
theorem test_valid_boundary :
    fld (step (State.withCycle (rxCycle 0xCD) (fdState (tv1.take 7) [])))
      (fun t => (t.fd.statusWord t.params, t.fd.headWord, busRead t 0x04000, busRead t 0x04004, busRead t 0x04008)) =
      some (0x00010001, 0x80000008, 0x00000301, 0xCDC50A00, 0x00000000) := by decide +kernel

/-- TF2: the fifth silent edge, and not the fourth. -/
theorem test_silence_boundary :
    fld (step { s0 with fd := { fdOn with asm := [0x01, 0x83, 0x02, 0xC0, 0xF1], silCnt := 4 } })
      (fun t => t.fd.headWord) = some 0x80010005 ∧
    fld (step { s0 with fd := { fdOn with asm := [0x01, 0x83, 0x02, 0xC0, 0xF1], silCnt := 3 } })
      (fun t => (t.fd.headWord, t.fd.silCnt, t.fd.statusWord t.params)) = some (0, 4, 0x00000004) := by decide

/-- TF9 with FB = 8: the ninth byte, then the boundary by silence. -/
theorem test_overflow :
    fld (step (State.withCycle (rxCycle 0x28) { s0 with params := { params with fb := 8 }, fd := { fdOn with
        asm := [0x20, 0x21, 0x22, 0x23, 0x24, 0x25, 0x26, 0x27] } }))
      (fun t => t.fd.statusWord t.params) = some 0x0000010C ∧
    fld (step { s0 with params := { params with fb := 8 }, fd := { fdOn with
        asm := [0x20, 0x21, 0x22, 0x23, 0x24, 0x25, 0x26, 0x27], asmOvf := true, errOvf := true, silCnt := 4 } })
      (fun t => (t.fd.headWord, t.fd.statusWord t.params)) = some (0x80020008, 0x00010101) := by decide

/-- TF7, TF17 and TF18. -/
theorem test_receipt_corners :
    fld (step (State.withCycle { rxCycle 0x42 with rxActive := true } (fdState [] []))) (fun t => t.fd.asm) =
      some [0x42] ∧
    fld (step (State.withCycle (writeWithByte 0x00020 1 0x01) s0)) (fun t => t.fd.asm) = some [0x01] ∧
    fld (step (State.withCycle (writeWithByte 0x00020 0 0x03) (fdState [0x01] [])))
      (fun t => t.fd.statusWord t.params) = some 0 := by decide

/-- TF8: the third valid frame, on a full queue. -/
theorem test_queue_overflow :
    fld (step (State.withCycle (rxCycle 0xCD) (fdState (tv1.take 7) [⟨tv1, .valid⟩, ⟨tv1, .valid⟩])))
      (fun t => t.fd.statusWord t.params) = some 0x00020203 := by decide +kernel

/-- TF19: a new FD_SILENCE is compared at its own edge. -/
theorem test_new_timeout :
    fld (step (State.withCycle (busCycle (.write 0x00024 5)) { s0 with fd := { fdOn with
        silence := 100, asm := [0x01], silCnt := 10 } })) (fun t => t.fd.headWord) = some 0x80010001 := by
  decide

/-- TB1, TB2, TB3, TB5, TB7. -/
theorem test_reads :
    busRead s0 0x00004 = 0x01020100 ∧ busRead s0 0x00000 = 0x00000100 ∧ busRead s0 0x00008 = 0 ∧
    busRead s0 0x00038 = 0 ∧ busRead s0 0x10100 = 0 := by decide

/-- TB4: address bits [1:0] are ignored and CE_CRC keeps bits [15:0]; the value read is kept in busRdata. -/
theorem test_read_cycle :
    fld (busWrite 0x00010 0xABCD1234 s0) (fun t => busRead t 0x00013) = some 0x00001234 ∧
    fld (step (State.withCycle (busCycle (.read 0x00004)) s0)) (fun t => t.busRdata) = some (some 0x01020100) := by
  decide

/-- TE13: a DBUF write while BUSY is refused; TB8: past DBUF it is ignored, even while BUSY. -/
theorem test_dbuf_writes :
    fld (busWrite 0x10000 0xDEADBEEF (busyState (.crc16 0 6) 3)) (fun t => (busRead t 0x10000, t.ce.errBusy)) =
      some (0x00000301, true) ∧
    fld (busWrite 0x10100 0xDEADBEEF (busyState (.crc16 0 6) 3)) (fun t => t.ce.errBusy) = some false ∧
    fld (busWrite 0x10004 0xCDC50A00 s0) (fun t => t.ce.dbuf) =
      some [(4, 0x00), (5, 0x0A), (6, 0xC5), (7, 0xCD)] := by decide

/-- TE17: set wins. TE19: the clear keeps VALID and VREASON. -/
theorem test_done_clear :
    fld (step (State.withCycle (busCycle (.write 0x0000C 2)) (busyState (.crc16 0 6) 0))) (fun t => t.ce.done) =
      some true ∧
    fld (step (State.withCycle (busCycle (.write 0x0000C 2)) { s0 with ce := { s0.ce with
        done := true, vreason := .ok } })) (fun t => t.ce.statusWord) = some 0x00000014 := by decide

/-- TI2 to TI5. -/
theorem test_interrupts :
    State.intStatusWord { s0 with intEn := 1, ce := { s0.ce with done := true } } = 0x80000001 ∧
    State.intStatusWord { s0 with intEn := 2, ce := { s0.ce with errIllegal := true } } = 0x80000002 ∧
    State.intStatusWord { s0 with intEn := 4, fd := { fdOn with queue := [⟨tv1, .valid⟩] } } = 0x80000004 ∧
    State.intStatusWord { s0 with ce := { s0.ce with done := true }, fd := { fdOn with queue := [⟨tv1, .valid⟩] } } =
      0x00000005 := by decide

/-- TE22: reset abandons the operation in flight. -/
theorem test_reset_edge :
    fld (step (State.withCycle { busCycle (.write 0x00008 2) with rst := true } (busyState (.crc16 0 6) 0)))
      (fun t => (t.ce.crc, t.ce.statusWord, t.fd.silence)) = some (0xFFFF, 0, 20834) := by decide

/-- R123: the expansions. -/
theorem test_expansions :
    (Stmt.loadDbuf 4 [0x01, 0x02, 0x03, 0x04, 0x05]).expand =
      [.cycle (busCycle (.write 0x10004 0x04030201)), .cycle (busCycle (.write 0x10008 0x00000005))] ∧
    (Stmt.rxStream [0x01, 0x03] 1).expand = [.cycle (rxCycle 0x01), .cycle idleCycle, .cycle (rxCycle 0x03)] ∧
    (Stmt.cmd (.ceUpdate 0x5A)).expand = [.cycle (busCycle (.write 0x00008 0x00005A02))] ∧
    Stmt.clrErr.expand =
      [.cycle (busCycle (.write 0x0000C 0x702)), .cycle (busCycle (.write 0x00028 0x300))] := by decide

/-- R122: a bus statement and an RX in one cycle; an RD's expectation, alone or shared (TB1). -/
theorem test_shared_cycles :
    (Stmt.wrRx 0x00020 1 0x01).expand = [.cycle (writeWithByte 0x00020 1 0x01)] ∧
    (Stmt.rdRx 0x00004 0x01020100 0x01).expand = [.cycle { rxCycle 0x01 with bus := .read 0x00004 }] ∧
    (Stmt.rdRx 0x00004 0x01020100 0x01).expectMet s0 = true ∧ (Stmt.rdRx 0x00004 0 0x01).expectMet s0 = false ∧
    (Stmt.rd 0x00004 0).expectMet s0 = false := by decide

/-- R123: WAITDONE reads CE_STATUS again exactly while BUSY is 1. -/
theorem test_waitDone :
    fld (step { busyState (.crc16 0 6) 1 with script := [.waitDone] }) (fun t => (t.script, t.busRdata)) =
      some ([.waitDone], some 1) ∧
    fld (step { s0 with script := [.waitDone] }) (fun t => (t.script, t.busRdata)) = some ([], some 0) := by
  decide

/-- 95_test_vectors.md's command rows TD1 to TD4, CE_CRC16 and CE_VALIDATE (accepted: length 0) and the FD commands, each
as the first command after reset. -/
theorem test_first_command_after_reset :
    [0x00, 0x01, 0x5A02, 0x03, 0x04, 0x10, 0x11, 0x12].map (fun w =>
        fld (step (State.reset.withFetchWord 32 w)) (fun t => (t.ce.crc, t.ce.statusWord))) =
      [some (0xFFFF, 0), some (0xFFFF, 0), some (0x7B3F, 0), some (0xFFFF, 1), some (0xFFFF, 1), some (0xFFFF, 0),
       some (0xFFFF, 0), some (0xFFFF, 0)] := by decide

/-- The memory of the state after reset has the canonical form. -/
theorem test_reset_memory : State.reset.ce.dbuf.wf := by decide

/-! ### Witnesses: concrete states and operands that meet the hypotheses of each statement together, at the boundary
values of its clauses. The number is the statement's id in OBLIGATIONS.json. -/

/-- O1 DecodeInvertsEncode: a word that decodes. -/
theorem witness_DecodeInvertsEncode : decode 0x0000FF02 = .legal (.ceUpdate 0xFF) := by decide

/-- O2: a word of each kind: legal, and illegal by each condition. -/
theorem witness_IllegalExactlyByThreeConditions :
    decode 0x00000012 = .legal .fdQclear ∧ decode 0x00000013 = .illegal .opcodeReserved ∧
    decode 0x80000003 = .illegal .reservedBitsSet ∧ decode 0x0000FF00 = .illegal .dataNotZero := by decide

/-- O3: a legal word and a row that holds it. -/
theorem witness_LegalWordsAreTableRows :
    decode 0x0000FF02 = .legal (.ceUpdate 0xFF) ∧ (⟨"CE_UPDATE", 0x00000002, 0xFFFF00FF⟩ : OpcodeRow) ∈ opcodeTable ∧
    (0x0000FF02#32) &&& 0xFFFF00FF = 0x00000002 := by decide

/-- O5: a write to CMD by an address with low bits set, of a legal and of an illegal word; a cycle without an access, one
that reads, and a write to another register, with an operation in flight. -/
theorem witness_StepRunsTheWrittenCommand :
    (State.withCycle (busCycle (.write 0x0000B 1)) s0).script = [.cycle (busCycle (.write 0x0000B 1))] ∧
    (busCycle (.write 0x0000B 1)).rst = false ∧ (0x0000B : BusAddr) &&& 0x1FFFC = 0x00008 ∧
    decode 1 = .legal .ceInit ∧ (∃ m, exec .ceInit { s0 with edges := 1 } = .next m) ∧
    decode 5 = .illegal .opcodeReserved ∧ idleCycle.bus = .idle ∧ (busCycle (.read 0x0000C)).bus = .read 0x0000C ∧
    (busCycle (.write 0x00024 5)).bus = .write 0x00024 5 ∧
    ∃ m, busWrite 0x00024 5 { busyState (.crc16 0 6) 3 with edges := 1 } = .next m :=
  ⟨rfl, rfl, by decide, by decide, ⟨_, rfl⟩, by decide, rfl, rfl, rfl, ⟨_, rfl⟩⟩

/-- O7, O8, O9, O10: a free engine, a busy one, and illegal words of each operation code. -/
theorem witness_ceCommands :
    s0.ce.op = none ∧ (busyState (.crc16 0 6) 3).ce.op ≠ none ∧
    (0x00000101#32).extractLsb' 0 8 = 0x01#8 ∧ (0x00000101#32) ≠ 0x00000001 ∧
    (0x00000002#32).extractLsb' 0 8 = 0x02#8 ∧ (0x00000002#32).extractLsb' 16 16 = 0#16 ∧
    (0x80000002#32).extractLsb' 0 8 = 0x02#8 ∧ (0x80000002#32).extractLsb' 16 16 ≠ 0#16 ∧
    (0x80000003#32).extractLsb' 0 8 = 0x03#8 ∧ (0x80000003#32) ≠ 0x00000003 ∧
    (0x00000104#32).extractLsb' 0 8 = 0x04#8 ∧ (0x00000104#32) ≠ 0x00000004 := by decide

/-- O9: the last range that is accepted and the first that is not; an operation of no byte. -/
theorem witness_CeCrc16IsAccepted :
    (250#16).toNat + (6#16).toNat ≤ params.dbufBytes ∧ params.dbufBytes < (250#16).toNat + (7#16).toNat ∧
    (opOf (.crc16 256 0) 0).kind = .crc16 256 0 := by decide

/-- O10: the last length that is accepted and the first that is not; an operation of fewer than 6 bytes. -/
theorem witness_CeValidateIsAccepted :
    (256#16).toNat ≤ params.dbufBytes ∧ params.dbufBytes < (257#16).toNat ∧
    (opOf (.validate 5) 0).kind = .validate 5 ∧ (5#16).toNat < 6 := by decide

/-- O11: an empty queue, and one with two frames; O11, O12, O13: illegal words of each operation code. -/
theorem witness_fdCommands :
    s0.fd.queue = [] ∧ (fdState [] [⟨tv1, .valid⟩, ⟨tv1, .silence⟩]).fd.queue = ⟨tv1, .valid⟩ :: [⟨tv1, .silence⟩] ∧
    (0x00000110#32).extractLsb' 0 8 = 0x10#8 ∧ (0x00000110#32) ≠ 0x00000010 ∧
    (0x00010011#32).extractLsb' 0 8 = 0x11#8 ∧ (0x00010011#32) ≠ 0x00000011 ∧
    (0x80000012#32).extractLsb' 0 8 = 0x12#8 ∧ (0x80000012#32) ≠ 0x00000012 := by decide

/-- O14: every command gives a next state, from a free and from a busy engine. -/
theorem witness_CommandFrame :
    (∃ t, exec .nop s0 = .next t) ∧ (∃ t, exec .ceInit s0 = .next t) ∧ (∃ t, exec (.ceUpdate 0x56) s0 = .next t) ∧
    (∃ t, exec .ceCrc16 s0 = .next t) ∧ (∃ t, exec .ceValidate s0 = .next t) ∧ (∃ t, exec .fdPop s0 = .next t) ∧
    (∃ t, exec .fdFlush s0 = .next t) ∧ (∃ t, exec .fdQclear s0 = .next t) ∧
    ∃ t, exec .ceInit (busyState (.crc16 0 6) 3) = .next t :=
  ⟨⟨_, rfl⟩, ⟨_, rfl⟩, ⟨_, rfl⟩, ⟨_, rfl⟩, ⟨_, rfl⟩, ⟨_, rfl⟩, ⟨_, rfl⟩, ⟨_, rfl⟩, ⟨_, rfl⟩⟩

/-- O15: one word for each outcome: illegal, a CE command while BUSY, out of range, accepted. -/
theorem witness_CommandChecksInOrder :
    decode 5 = .illegal .opcodeReserved ∧
    (decode 3 = .legal .ceCrc16 ∧ Instr.ceCrc16.isCeCommand = true ∧ (busyState (.crc16 0 6) 3).ce.op ≠ none) ∧
    (decode 4 = .legal .ceValidate ∧ s0.ce.op = none ∧ s0.params.dbufBytes < (257#16).toNat) ∧
    (decode 3 = .legal .ceCrc16 ∧ s0.ce.op = none ∧
      ¬ s0.params.dbufBytes < s0.ce.offset.toNat + s0.ce.length.toNat) := by decide

/-- O16: one cycle for each error: an illegal word, a write while BUSY, an operation out of range. -/
theorem witness_ErrorsArePrecise :
    (let s := State.withCycle (busCycle (.write 0x00008 5)) s0
     busPhase (busCycle (.write 0x00008 5)).bus s.beginEdge = .next (s.beginEdge.raise .illegal)) ∧
    (let s := State.withCycle (busCycle (.write 0x00010 0)) (busyState (.crc16 0 6) 3)
     busPhase (busCycle (.write 0x00010 0)).bus s.beginEdge = .next (s.beginEdge.raise .busy)) ∧
    (let s := State.withCycle (busCycle (.write 0x00008 4)) { s0 with ce := { s0.ce with length := 257 } }
     busPhase (busCycle (.write 0x00008 4)).bus s.beginEdge = .next (s.beginEdge.raise .range)) ∧
    (busCycle (.write 0x00008 5)).rst = false ∧ ∀ a, (busCycle (.write 0x00008 5)).bus ≠ .read a :=
  ⟨rfl, rfl, rfl, rfl, by intro a h; cases h⟩

/-- O21, O22: a valid frame, and the first and last bit of its first and last byte. -/
theorem witness_validFrame :
    isValidFrame tv1 = true ∧ 0 < tv1.length ∧ 7 < tv1.length ∧ isValidFrame (flipBit tv1 0 0) = false ∧
    isValidFrame (flipBit tv1 7 7) = false := by decide +kernel

/-- O23: TV2 (6 bytes), TV3 (5 bytes), TV5 to TV8 (unit ids 0, 248, 247; a CRC that does not match). -/
theorem witness_FrameCheckContract :
    checkFrame (byteAt [0x01, 0x07, 0x00, 0x00, 0xB0, 0x19]) 6 = .ok ∧
    checkFrame (byteAt [0x01, 0x83, 0x02, 0xC0, 0xF1]) 5 = .short ∧
    checkFrame (byteAt [0x00, 0x06, 0x00, 0x01, 0x00, 0x03, 0x99, 0xDA]) 8 = .unitId ∧
    checkFrame (byteAt [0xF8, 0x03, 0x00, 0x00, 0x00, 0x01, 0x90, 0x63]) 8 = .unitId ∧
    checkFrame (byteAt [0xF7, 0x03, 0x00, 0x00, 0x00, 0x01, 0x90, 0x9C]) 8 = .ok ∧
    checkFrame (byteAt [0x01, 0x03, 0x00, 0x01, 0x00, 0x0A, 0xC5, 0xCD]) 8 = .crc := by decide +kernel

/-- O24: the shortest body, with the first and the last legal unit id. -/
theorem witness_BuiltFrameIsValid :
    4 ≤ [0x01#8, 0x07, 0x00, 0x00].length ∧ 1 ≤ (byteAt [0x01, 0x07, 0x00, 0x00] 0).toNat ∧
    (byteAt [0xF7, 0x03, 0x00, 0x00] 0).toNat ≤ 247 := by decide

/-- O25: a free engine and the script of a CE_INIT and two CE_UPDATE. -/
theorem witness_StreamingEquivalence :
    s0.ce.op = none ∧
    { s0 with script := [cmdCycle 1, cmdCycle 0x0102, cmdCycle 0x0302] }.script =
      (.ceInit :: [0x01#8, 0x03].map Instr.ceUpdate).map (fun i => cmdCycle (encode i)) ++ [] := by decide

/-- O26, O28: an operation in flight that waits 2 edges, one that waits none; a script without reset, and WAITDONE. -/
theorem witness_InFlightOperationCompletes :
    (busyState (.crc16 0 6) 2).ce.op = some (opOf (.crc16 0 6) 2) ∧
    (busyState (.validate 8) 0).ce.op = some (opOf (.validate 8) 0) ∧ NoReset (busyState (.crc16 0 6) 2).script ∧
    { busyState (.crc16 0 6) 2 with script := [.waitDone] }.script = .waitDone :: [] :=
  ⟨rfl, rfl, by simp [NoReset, busyState, s0], rfl⟩

/-- O27: a free engine, operands at the end of DBUF, the command (CE_CRC16; CE_VALIDATE) as the first cycle and no reset
after it. -/
theorem witness_ResultDependsOnAcceptanceOnly :
    let s (i : Instr) : State := { s0 with
      ce := { s0.ce with offset := 200, length := 56 }
      script := [cmdCycle (encode i), .cycle (busCycle (.write 0x10000 1))] }
    NoReset [.cycle (busCycle (.write 0x10000 1))] ∧
    ((s .ceCrc16).ce.op = none ∧ (200#16).toNat + (56#16).toNat ≤ params.dbufBytes ∧
      (s .ceCrc16).script = cmdCycle (encode .ceCrc16) :: [.cycle (busCycle (.write 0x10000 1))]) ∧
    ((s .ceValidate).ce.op = none ∧ (s .ceValidate).ce.length.toNat ≤ (s .ceValidate).params.dbufBytes ∧
      (s .ceValidate).script = cmdCycle (encode .ceValidate) :: [.cycle (busCycle (.write 0x10000 1))]) ∧
    (256#16).toNat ≤ params.dbufBytes :=
  ⟨by simp [NoReset, busCycle, idleCycle], ⟨rfl, by decide, rfl⟩, ⟨rfl, by decide, rfl⟩, by decide⟩

/-- O29: operations that read only written bytes: all eight, and none of a short frame. -/
theorem witness_WrittenDbufGivesSpecifiedResult :
    ReadsWritten (opOf (.crc16 0 8) 0).snap 0 8 ∧ ReadsWritten (opOf (.validate 8) 0).snap 0 8 ∧
    ¬ 6 ≤ (5#16).toNat := by
  refine ⟨?_, ?_, by decide⟩ <;> · unfold ReadsWritten; decide

/-- O30: a reset cycle that also writes and receives, from a busy state, in a legal build. -/
theorem witness_ResetEdgeGivesResetValues :
    let e : EdgeInput := { writeWithByte 0x00008 2 0x55 with rst := true }
    (State.withCycle e (busyState (.crc16 0 6) 0)).script = .cycle e :: [] ∧ e.rst = true ∧
    (busyState (.crc16 0 6) 0).params.legal = true := by decide

/-- O31: the smallest and the largest legal build. -/
theorem witness_ResetStateValues :
    (⟨8, 6, 1, 1, 1, 0⟩ : Params).legal = true ∧ (⟨65536, 16384, 255, 1, 1, 0xFFFFFFFF⟩ : Params).legal = true ∧
    silenceCycles 50000000 9600 < 2 ^ 32 := by decide

/-- O32: a cycle that reads. -/
theorem witness_ReadHasNoSideEffect :
    (State.withCycle (busCycle (.read 0x04000)) s0).script = .cycle (busCycle (.read 0x04000)) :: [] ∧
    (busCycle (.read 0x04000)).bus = .read 0x04000 := by decide

/-- O34: the first and last address of each unmapped range and of the FRAME window, of this build. -/
theorem witness_UnmappedReadOnlyAndReserved :
    (0x38 ≤ (0x00038 : BusAddr).toNat ∧ (0x03FFF : BusAddr).toNat < 0x4000) ∧
    (0x4000 ≤ (0x04000 : BusAddr).toNat ∧ (0x07FFF : BusAddr).toNat < 0x8000) ∧
    (0x8000 ≤ (0x08000 : BusAddr).toNat ∧ (0x0FFFF : BusAddr).toNat < 0x10000) ∧
    0x10000 + s0.params.dbufBytes ≤ ((0x10100 : BusAddr) &&& 0x1FFFC).toNat ∧
    ¬ 0x10000 + s0.params.dbufBytes ≤ ((0x100FF : BusAddr) &&& 0x1FFFC).toNat ∧
    0x10000 + s0.params.dbufBytes ≤ ((0x1FFFF : BusAddr) &&& 0x1FFFC).toNat := by decide

/-- O36: a full queue, and a full assembling buffer of the smallest build. -/
theorem witness_FdStatusFields :
    let s : State := { fdState [0x20, 0x21, 0x22, 0x23, 0x24, 0x25] [⟨tv1, .valid⟩] with
      params := ⟨8, 6, 1, 1, 1, 0⟩ }
    s.params.legal = true ∧ s.fd.queue.length = s.params.qd ∧ s.fd.asm.length = s.params.fb := by decide

/-- O37: an empty queue; a queue with a head frame; the ends of the FRAME window. -/
theorem witness_HeadFrameIsVisible :
    (fdState [] []).fd.queue = [] ∧ (fdState [] [⟨tv1, .valid⟩]).fd.queue = ⟨tv1, .valid⟩ :: [] ∧
    tv1.length ≤ 16384 ∧ 0x4000 ≤ (0x04000 : BusAddr).toNat ∧ (0x07FFF : BusAddr).toNat < 0x8000 ∧
    (BitVec.ofNat 17 (0x4000 + 4 * 4095)).toNat = 0x7FFC := by decide

/-- O39: a cycle that writes a register, and the free engine. -/
theorem witness_WrittenRegisterReadsBack :
    (State.withCycle (busCycle (.write (regAddr .ceCrc) 0xABCD1234)) s0).script =
      .cycle (busCycle (.write (regAddr .ceCrc) 0xABCD1234)) :: [] ∧
    (busCycle (.write (regAddr .ceCrc) 0xABCD1234)).rst = false ∧ s0.ce.op = none := by decide

/-- O40: the first and the last word of DBUF and its lanes, for a read while an operation is in flight and for a write
while none is. -/
theorem witness_DbufWordWrite :
    (busyState (.crc16 0 6) 3).params.legal = true ∧ (busyState (.crc16 0 6) 3).ce.op ≠ none ∧ s0.params.legal = true ∧
    s0.ce.op = none ∧ 252 % 4 = 0 ∧ 0 < s0.params.dbufBytes ∧ 252 < s0.params.dbufBytes ∧ 3 < 4 ∧
    (busRead (busyState (.crc16 0 6) 3) 0x10000).extractLsb' 8 8 = 0x03#8 := by decide

/-- O41: an operation in flight; a refused register, the last refused DBUF word, a refused command; a write that is not;
a write that sets ERR_BUSY. -/
theorem witness_WritesRefusedWhileBusy :
    let s := busyState (.crc16 0 6) 3
    s.ce.op ≠ none ∧ addrTarget 0x00010 = .reg .ceCrc ∧ addrTarget 0x100FC = .dbuf 252 ∧ 252 < s.params.dbufBytes ∧
    addrTarget 0x00008 = .reg .cmd ∧ decode 1 = .legal .ceInit ∧ Instr.ceInit.isCeCommand = true ∧
    addrTarget 0x0001C = .reg .intEn ∧ decode 0x10 = .legal .fdPop ∧ s.ce.errBusy = false ∧
    fld (busWrite 0x00010 0 s) (fun t => t.ce.errBusy) = some true := by decide

/-- O43: a completing edge with a write of CE_STATUS; a dropped byte, a valid frame on a full queue, and the last silent
cycle of a timeout on a full queue, each with a write of FD_STATUS. -/
theorem witness_SetWinsOverClear :
    (busyState (.crc16 0 6) 0).ce.op = some (opOf (.crc16 0 6) 0) ∧ (opOf (.crc16 0 6) 0).wait = 0 ∧
    (busCycle (.write 0x0000C 2)).bus = .write 0x0000C 2 ∧
    (let s : State := { fdState [0x20, 0x21, 0x22, 0x23, 0x24, 0x25] [] with params := ⟨8, 6, 1, 1, 1, 0⟩ }
     s.fd.en = true ∧ s.params.fb ≤ s.fd.asm.length) ∧
    (let s := fdState (tv1.take 7) [⟨tv1, .valid⟩, ⟨tv1, .valid⟩]
     s.fd.asm.length < s.params.fb ∧ isValidFrame (s.fd.asm ++ [0xCD]) = true ∧ s.params.qd ≤ s.fd.queue.length) ∧
    (let f : Fd := { (fdState [0x01] [⟨tv1, .valid⟩, ⟨tv1, .valid⟩]).fd with silCnt := 4 }
     f.en = true ∧ f.asm ≠ [] ∧ f.silence ≠ 0 ∧ f.silence.toNat = f.silCnt.toNat + 1 ∧ params.qd = f.queue.length) ∧
    (busCycle (.write 0x00028 0x300)).bus = .write 0x00028 0x300 ∧ (busCycle (.write 0x00028 0x300)).rst = false ∧
    (busCycle (.write 0x00028 0x300)).rxValid = false ∧ (busCycle (.write 0x00028 0x300)).rxActive = false ∧
    (writeWithByte 0x00028 0x300 0xCD).bus = .write 0x00028 0x300 ∧ (writeWithByte 0x00028 0x300 0xCD).rst = false ∧
    (writeWithByte 0x00028 0x300 0xCD).rxValid = true := by decide +kernel

/-- O44: an edge that clears DONE and all five flags by the host. -/
theorem witness_FlagsClearedOnlyByHost :
    fld (step (State.withCycle (busCycle (.write 0x0000C 0x702)) { s0 with ce := { s0.ce with
        done := true, errIllegal := true, errBusy := true, errRange := true } })) (fun t => t.ce.statusWord) = some 0 ∧
    fld (step (State.withCycle (busCycle (.write 0x00028 0x300)) { s0 with fd := { s0.fd with
        errOvf := true, errQovr := true } })) (fun t => t.fd.statusWord t.params) = some 0 ∧
    (State.withCycle (busCycle (.write 0x0000C 0x702)) s0).nextInput.rst = false := by decide

/-- O45: EN = 0 with a byte, in a cycle that writes a DBUF word and in one that writes EN = 0; the writes of EN; an empty
assembling buffer. -/
theorem witness_DisabledDetectorDiscards :
    (∃ m, busPhase (writeWithByte 0x10000 7 0x01).bus s0.beginEdge = .next m ∧ m.fd.en = false ∧
      (writeWithByte 0x10000 7 0x01).bus.leavesFd = true) ∧
    (∃ m, busPhase (writeWithByte 0x00020 0 0x03).bus (fdState [0x01] []).beginEdge = .next m ∧ m.fd.en = false) ∧
    (writeWithByte 0x00020 0 0x03).bus = .write 0x00020 0x00000000 ∧
    (writeWithByte 0x00020 1 0x01).bus = .write 0x00020 0x00000001 ∧ s0.fd.asm = [] ∧ 1 ≤ s0.params.fb ∧
    (writeWithByte 0x00020 1 0x01).rxValid = true ∧ (writeWithByte 0x00020 1 0x01).rst = false :=
  ⟨⟨_, rfl, rfl, by decide⟩, ⟨_, rfl, rfl⟩, rfl, rfl, rfl, by decide, rfl, rfl⟩

/-- O46: cycles with a byte that also write CE_CRC, set EN and read; each clause's case: the last free byte, a valid frame
on a queue with room and on a full one, a full buffer. -/
theorem witness_ByteReceipt :
    (∃ m, busPhase (writeWithByte 0x00010 7 0xCD).bus (fdState (tv1.take 7) []).beginEdge = .next m ∧ m.fd.en = true ∧
      m.fd.asm = tv1.take 7 ∧ (writeWithByte 0x00010 7 0xCD).bus.leavesFd = true) ∧
    (∃ m, busPhase (writeWithByte 0x00020 1 0xCD).bus s0.beginEdge = .next m ∧ m.fd.en = true) ∧
    (∃ m, busPhase (.read 0x00028) (fdState [] []).beginEdge = .next m ∧ m.fd.en = true) ∧
    (writeWithByte 0x00010 7 0xCD).rst = false ∧ (writeWithByte 0x00010 7 0xCD).rxValid = true ∧
    (let asm : List Byte := [0x20, 0x21, 0x22, 0x23, 0x24]
     asm.length + 1 = 6 ∧ isValidFrame (asm ++ [0xCD]) = false) ∧
    isValidFrame (tv1.take 7 ++ [0xCD]) = true ∧
    (fdState (tv1.take 7) [⟨tv1, .valid⟩]).fd.queue.length + 1 = params.qd ∧
    (fdState (tv1.take 7) [⟨tv1, .valid⟩, ⟨tv1, .valid⟩]).fd.queue.length = params.qd ∧
    ({ params with fb := 7 } : Params).fb ≤ (fdState (tv1.take 7) []).fd.asm.length :=
  ⟨⟨_, rfl, rfl, rfl, by decide⟩, ⟨_, rfl, by decide⟩, ⟨_, rfl, rfl⟩, rfl, rfl, by decide +kernel, by decide +kernel,
   by decide, by decide, by decide⟩

/-- O47: cycles without a byte that write INT_EN and FD_SILENCE; each clause's case: the edge before the timeout and the
edge of it, with room and on a full queue; the timeout off with a saturated count. -/
theorem witness_CycleWithoutByte :
    (∃ m, busPhase (busCycle (.write 0x0001C 7)).bus (fdState [0x01] []).beginEdge = .next m ∧ m.fd.en = true ∧
      m.fd.asm ≠ [] ∧ (busCycle (.write 0x0001C 7)).bus.leavesFd = true) ∧
    (∃ m, busPhase (busCycle (.write 0x00024 1)).bus (fdState [0x01] []).beginEdge = .next m ∧ m.fd.en = true ∧
      m.fd.silence.toNat ≤ m.fd.silCnt.toNat + 1) ∧
    (busCycle (.write 0x0001C 7)).rst = false ∧ (busCycle (.write 0x0001C 7)).rxValid = false ∧
    idleCycle.rxActive = false ∧ ({ idleCycle with rxActive := true } : EdgeInput).rxActive = true ∧
    (fdState [] []).fd.asm = [] ∧ ¬ (fdOn.silence ≠ 0 ∧ fdOn.silence.toNat ≤ (3#32).toNat + 1) ∧
    (fdOn.silence ≠ 0 ∧ fdOn.silence.toNat ≤ (4#32).toNat + 1) ∧
    ¬ ((0 : Word) ≠ 0 ∧ (0 : Word).toNat ≤ (0xFFFFFFFF#32).toNat + 1) ∧
    (fdState [0x01] [⟨tv1, .valid⟩]).fd.queue.length < params.qd ∧
    params.qd ≤ (fdState [0x01] [⟨tv1, .valid⟩, ⟨tv1, .valid⟩]).fd.queue.length :=
  ⟨⟨_, rfl, rfl, by decide, by decide⟩, ⟨_, rfl, rfl, by decide⟩, rfl, rfl, rfl, rfl, rfl, by decide, by decide,
   by decide, by decide, by decide⟩

/-- O48: TF2's state after its last byte, with five silent cycles to come, two of which write CE_CRC and read; and the
shortest timeout. -/
theorem witness_SilenceBoundaryAtEdgeS :
    (let cycles := [idleCycle, busCycle (.write 0x00010 7), busCycle (.read 0x00028), idleCycle, idleCycle]
     let s : State := { fdState [0x01, 0x83] [] with script := cycles.map .cycle }
     s.fd.en = true ∧ s.fd.asm ≠ [] ∧ s.fd.silCnt = 0 ∧ s.fd.silence ≠ 0 ∧ s.fd.queue.length < s.params.qd ∧
     cycles.length = s.fd.silence.toNat ∧
     (∀ e ∈ cycles, e.rst = false ∧ e.bus.leavesFd = true ∧ e.rxSilent = true) ∧ s.script = cycles.map .cycle ++ []) ∧
    (1 : Word) ≠ 0 ∧ [idleCycle].length = (1 : Word).toNat := by decide

/-- O49: E3's stream, with a gap of FD_SILENCE - 1 silent cycles after its fourth byte, in which a character is in
progress for one cycle more and the host writes CE_CRC. -/
theorem witness_GappedStreamIsOneFrame :
    let first := rxCycle 0x01
    let gap := [idleCycle, busCycle (.write 0x00010 7), { idleCycle with rxActive := true }, idleCycle, idleCycle]
    let more : List (List EdgeInput × EdgeInput) :=
      [([], rxCycle 0x03), ([], rxCycle 0x00), ([], writeWithByte 0x10000 1 0x00), (gap, rxCycle 0x00),
       ([], rxCycle 0x0A), ([], rxCycle 0xC5), ([], rxCycle 0xCD)]
    let s : State := { fdState [] [] with script := (streamInputs first more).map .cycle }
    s.fd.en = true ∧ s.fd.asm = [] ∧ s.fd.queue.length < s.params.qd ∧
    (∀ e ∈ streamInputs first more, e.rst = false ∧ e.bus.leavesFd = true) ∧ first.rxValid = true ∧
    (∀ g ∈ more, g.2.rxValid = true ∧ (∀ e ∈ g.1, e.rxValid = false) ∧
      (s.fd.silence ≠ 0 → (g.1.filter EdgeInput.rxSilent).length < s.fd.silence.toNat)) ∧
    streamBytes first more = tv1 ∧ tv1.length ≤ s.params.fb ∧
    (∀ k, k < tv1.length → isValidFrame (tv1.take k) = false) ∧ isValidFrame tv1 = true ∧
    s.script = (streamInputs first more).map .cycle ++ [] := by decide +kernel

/-- O50: each clause's case: a pop on a full queue, a clear, a flush, a new timeout that is met and one that is not. -/
theorem witness_SameEdgeOrder :
    (let s := fdState (tv1.take 7) [⟨tv1, .valid⟩, ⟨tv1, .silence⟩]
     s.fd.en = true ∧ isValidFrame (s.fd.asm ++ [0xCD]) = true ∧ s.fd.asm.length < s.params.fb ∧
     s.fd.queue = ⟨tv1, .valid⟩ :: [⟨tv1, .silence⟩] ∧ [(⟨tv1, .silence⟩ : Frame)].length < s.params.qd) ∧
    (writeWithByte 0x00008 0x10 0xCD).bus = .write 0x00008 0x00000010 ∧
    (writeWithByte 0x00008 0x12 0xCD).bus = .write 0x00008 0x00000012 ∧
    (writeWithByte 0x00008 0x11 0x55).bus = .write 0x00008 0x00000011 ∧
    (writeWithByte 0x00008 0x10 0xCD).rst = false ∧ 1 ≤ params.fb ∧ 1 ≤ params.qd ∧
    (busCycle (.write 0x00024 5)).bus = .write 0x00024 5 ∧ (5 : Word) ≠ 0 ∧
    (5 : Word).toNat ≤ (4#32).toNat + 1 ∧ (3#32).toNat + 1 < (5 : Word).toNat := by decide +kernel

/-- A legal build's state with a queued foreign frame meets the invariant. -/
theorem witness_inv :
    State.Inv (fdState [] [⟨[0x00, 0x06, 0x00, 0x01, 0x00, 0x03, 0x99, 0xDA], .silence⟩]) := by
  refine ⟨by decide, ⟨by decide, by decide, by simp [fdState, s0, Ce.reset]⟩, ?_, by decide⟩
  refine ⟨by decide, by decide, by decide, by decide, by decide, ?_, by decide, ?_⟩
  · unfold NoValidPrefix
    decide
  · intro r hr
    simp only [fdState, List.mem_singleton] at hr
    subst hr
    exact ⟨by decide, by decide, by decide, by decide, by decide⟩

/-- O51: a state that meets the invariant and a queued frame with unit id 0; the bounds of the unit id and the length. -/
theorem witness_ShortAndForeignFramesAreNeverValid :
    State.Inv (fdState [] [⟨[0x00, 0x06, 0x00, 0x01, 0x00, 0x03, 0x99, 0xDA], .silence⟩]) ∧
    (byteAt [0x00, 0x06, 0x00, 0x01, 0x00, 0x03, 0x99, 0xDA] 0).toNat = 0 ∧ 248 ≤ (0xF8 : Byte).toNat ∧
    [0x01#8, 0x83, 0x02, 0xC0, 0xF1].length < 6 :=
  ⟨witness_inv, by decide, by decide, by decide⟩

/-- O53: a state that meets the invariant and takes a step. -/
theorem witness_StepKeepsTheInvariant :
    ∃ t, State.Inv (fdState [] [⟨[0x00, 0x06, 0x00, 0x01, 0x00, 0x03, 0x99, 0xDA], .silence⟩]) ∧
      step (fdState [] [⟨[0x00, 0x06, 0x00, 0x01, 0x00, 0x03, 0x99, 0xDA], .silence⟩]) = .next t :=
  ⟨_, witness_inv, rfl⟩

/-- O55: two states that differ in the CE alone, and the same cycle. -/
theorem witness_DetectorIsIndependentOfEngine :
    let s := State.withCycle (rxCycle 0x01) s0
    let s' := State.withCycle (rxCycle 0x01) (busyState (.crc16 0 6) 3)
    s.script = .cycle (rxCycle 0x01) :: [] ∧ s'.script = .cycle (rxCycle 0x01) :: [] ∧ s.params = s'.params ∧
    s.fd = s'.fd ∧ s.ce ≠ s'.ce ∧ (∃ t, step s = .next t) ∧ ∃ t, step s' = .next t :=
  ⟨rfl, rfl, rfl, rfl, by decide, ⟨_, rfl⟩, ⟨_, rfl⟩⟩

/-- O56: two states that differ in the FD alone, and cycles that differ in the byte received. -/
theorem witness_EngineIsIndependentOfDetector :
    let s := State.withCycle (rxCycle 0x01) s0
    let s' := State.withCycle idleCycle (fdState [0x01] [])
    s.script = .cycle (rxCycle 0x01) :: [] ∧ s'.script = .cycle idleCycle :: [] ∧
    (rxCycle 0x01).rst = idleCycle.rst ∧ (rxCycle 0x01).bus = idleCycle.bus ∧ s.params = s'.params ∧
    s.edges = s'.edges ∧ s.ce = s'.ce ∧ s.fd ≠ s'.fd ∧ (∃ t, step s = .next t) ∧ ∃ t, step s' = .next t :=
  ⟨rfl, rfl, rfl, rfl, rfl, rfl, rfl, by decide, ⟨_, rfl⟩, ⟨_, rfl⟩⟩

/-- O57: edges that change CE_CRC by a command and by a completion, VREASON, DONE and BUSY by a completion, BUSY by a
command, CE_OFFSET, CE_LENGTH, INT_EN and the last byte of DBUF by a write; and one at which an operation waits. -/
theorem witness_ResultRegistersChangeOnlyByRule :
    let wr (a : BusAddr) (w : Word) := step (State.withCycle (busCycle (.write a w)) s0)
    fld (step (s0.withFetchWord 32 0x00000102)) (fun t => t.ce.crc) = some 0x807E ∧
    fld (step (busyState (.crc16 0 6) 0)) (fun t => (t.ce.crc, t.ce.done, t.ce.busy)) = some (0xCDC5, true, false) ∧
    fld (step (busyState (.validate 8) 0)) (fun t => t.ce.vreason) = some .ok ∧
    fld (step (s0.withFetchWord 32 3)) (fun t => t.ce.busy) = some true ∧
    fld (step (s0.withFetchWord 32 4)) (fun t => t.ce.busy) = some true ∧
    fld (wr 0x00014 0xABCD1234) (fun t => t.ce.offset) = some 0x1234 ∧
    fld (wr 0x00018 0xABCD1234) (fun t => t.ce.length) = some 0x1234 ∧
    fld (wr 0x0001C 0xFFFFFFFD) (fun t => t.intEn) = some 5 ∧
    fld (wr 0x100FC 0xDEADBEEF) (fun t => t.ce.dbufByte 255) = some 0xDE ∧
    fld (step (busyState (.crc16 0 6) 1)) (fun t => t.ce.op.map InFlight.wait) = some (some 0) ∧
    (busyState (.validate 8) 0).nextInput.rst = false := by decide +kernel

/-- O58: an edge that gains a frame, one that keeps the queue, one that pops. -/
theorem witness_QueueLosesFramesOnlyByCommand :
    fld (step (State.withCycle (rxCycle 0xCD) (fdState (tv1.take 7) []))) (fun t => t.fd.queue) =
      some [⟨tv1, .valid⟩] ∧
    fld (step (fdState [] [⟨tv1, .valid⟩])) (fun t => t.fd.queue) = some [⟨tv1, .valid⟩] ∧
    fld (step ((fdState [] [⟨tv1, .valid⟩]).withFetchWord 32 0x10)) (fun t => t.fd.queue) = some [] := by
  decide +kernel

/-- O59: an edge that sets each of the three flags. -/
theorem witness_EngineErrorsOnlyByTheirCauses :
    fld (step (s0.withFetchWord 32 5)) (fun t => t.ce.errIllegal) = some true ∧
    fld (step ((busyState (.crc16 0 6) 3).withFetchWord 32 1)) (fun t => t.ce.errBusy) = some true ∧
    fld (step (State.withFetchWord { s0 with ce := { s0.ce with length := 257 } } 32 4)) (fun t => t.ce.errRange) =
      some true ∧
    (s0.withFetchWord 32 5).nextInput.rst = false := by decide

/-- O60: R181's example lies exactly at its bound. -/
theorem witness_SilenceDefaultIsFourBitPeriods :
    0 < 9600 ∧ 4 * 50000000 ≤ 20834 * 9600 ∧ ¬ 4 * 50000000 ≤ 20833 * 9600 := by decide

end Sys2Proof.Tests
end

section
/-! The build's parameters (00_scope.md R8): what legal builds satisfy, the default timeout, and how PARAM_DBUF and
PARAM_FD show them. -/

namespace Sys2Proof.Machine

/-! ### The default timeout -/

theorem silenceCycles_eq_ceilDiv (clk baud : Nat) : silenceCycles clk baud = (4 * clk) ⌈/⌉ baud := rfl

theorem silenceCycles_le_iff {baud : Nat} (clk n : Nat) (h : 0 < baud) :
    silenceCycles clk baud ≤ n ↔ 4 * clk ≤ n * baud := by
  rw [silenceCycles_eq_ceilDiv, ceilDiv_le_iff_le_mul h, Nat.mul_comm n]

theorem silenceResetDefault_toNat {clk baud : Nat} (h : silenceCycles clk baud < 2 ^ 32) :
    (silenceResetDefault clk baud).toNat = silenceCycles clk baud := by
  rw [silenceResetDefault, if_pos h, BitVec.toNat_ofNat, Nat.mod_eq_of_lt h]

/-- Settles O60: the formula of R8 is the ceiling division, whose Galois connection is the claim. -/
theorem silenceDefaultIsFourBitPeriods : Obligations.SilenceDefaultIsFourBitPeriods :=
  ⟨fun clk _ n h => silenceCycles_le_iff clk n h, by decide⟩

/-! ### Legal builds -/

theorem Params.legal_iff (p : Params) :
    p.legal = true ↔ p.dbufBytes % 4 = 0 ∧ (8 ≤ p.dbufBytes ∧ p.dbufBytes ≤ 65536) ∧ (6 ≤ p.fb ∧ p.fb ≤ 16384) ∧
      (1 ≤ p.qd ∧ p.qd ≤ 255) ∧ 0 < p.clkHz ∧ 0 < p.baudReset := by
  simp [Params.legal, and_assoc]

/-- R8's defaults are legal whatever the two OPEN parameters are. -/
theorem Params.default_legal : Params.default.legal = true := by
  simp [Params.legal_iff, Params.default, openClkHz, openBaudReset]

/-! ### The parameter registers -/

/-- A read at a register's address shows that register (10_state.md R32). -/
@[simp] theorem busRead_regAddr (s : State) (r : Reg) : busRead s (regAddr r) = readReg s r := by
  simp [busRead]

theorem Params.dbufWord_toNat {p : Params} (h : p.legal = true) : p.dbufWord.toNat = p.dbufBytes := by
  obtain ⟨_, ⟨_, hle⟩, _⟩ := p.legal_iff.1 h
  exact Nat.mod_eq_of_lt (by omega)

/-- PARAM_FD[15:0] (10_state.md R37). -/
theorem Params.fdWord_fb (p : Params) : p.fdWord.extractLsb' 0 16 = BitVec.ofNat 16 p.fb :=
  BitVec.extractLsb'_append_eq_right

/-- PARAM_FD[23:16] (10_state.md R37). -/
theorem Params.fdWord_qd (p : Params) : p.fdWord.extractLsb' 16 8 = BitVec.ofNat 8 p.qd := by
  rw [Params.fdWord, BitVec.extractLsb'_append_eq_of_le (by decide)]
  exact BitVec.extractLsb'_append_eq_right

/-- PARAM_FD[31:24] is 1 in every build (10_state.md R37). -/
theorem Params.fdWord_ifver (p : Params) : p.fdWord.extractLsb' 24 8 = 0x01#8 := by
  rw [Params.fdWord, BitVec.extractLsb'_append_eq_of_le (by decide)]
  exact BitVec.extractLsb'_append_eq_left

theorem Params.fdWord_fb_toNat {p : Params} (h : p.legal = true) : (p.fdWord.extractLsb' 0 16).toNat = p.fb := by
  obtain ⟨_, _, ⟨_, hle⟩, _⟩ := p.legal_iff.1 h
  rw [Params.fdWord_fb]
  exact Nat.mod_eq_of_lt (by omega)

theorem Params.fdWord_qd_toNat {p : Params} (h : p.legal = true) : (p.fdWord.extractLsb' 16 8).toNat = p.qd := by
  obtain ⟨_, _, _, ⟨_, hle⟩, _⟩ := p.legal_iff.1 h
  rw [Params.fdWord_qd]
  exact Nat.mod_eq_of_lt (by omega)

/-- Settles O31: the reset state's fields are written out in the model, the timeout is `silenceResetDefault`, and the two
PARAM registers show the fields of a legal build. -/
theorem resetStateValues : Obligations.ResetStateValues := by
  have silence (h : silenceCycles openClkHz openBaudReset < 2 ^ 32) :
      State.reset.fd.silence.toNat = silenceCycles openClkHz openBaudReset := silenceResetDefault_toNat h
  have paramDbuf (s : State) : busRead s 0x00000 = s.params.dbufWord := busRead_regAddr s .paramDbuf
  have paramFd (s : State) : busRead s 0x00004 = s.params.fdWord := busRead_regAddr s .paramFd
  refine ⟨rfl, rfl, rfl, Params.default_legal, silence, rfl, rfl, rfl, rfl, rfl, rfl, rfl, paramDbuf _, paramFd _,
    rfl, rfl, rfl, fun s h => ?_⟩
  rw [paramDbuf, paramFd]
  exact ⟨Params.dbufWord_toNat h, Params.fdWord_fb_toNat h, Params.fdWord_qd_toNat h, s.params.fdWord_ifver⟩

end Sys2Proof.Machine
end

section
/-! Step 2 of an edge seen by each part of the state: what the cycle's bus access can do to the FD, to the CE and to
INT_EN (10_state.md R62, 20_memory.md R85 to R88). One constructor per event the rules name. -/

namespace Sys2Proof.Machine

/-- The cycle writes `w` to an address that selects `x` (20_memory.md R82, R85). -/
def BusAccess.Writes (b : BusAccess) (x : Target) (w : Word) : Prop := ∃ a, b = .write a w ∧ addrTarget a = x

/-- The operands of a block operation lie in DBUF (40_crc_engine.md R142, R147). -/
def CeKind.InRange (p : Params) : CeKind → Prop
  | .crc16 off len => off.toNat + len.toNat ≤ p.dbufBytes
  | .validate len => len.toNat ≤ p.dbufBytes

/-- What the bus access can leave of the FD `f`. -/
inductive FdAfterBus (b : BusAccess) (f : Fd) : Fd → Prop where
  | same : FdAfterBus b f f
  | enable (w : Word) (hw : b.Writes (.reg .fdCtrl) w) : FdAfterBus b f { f with en := w.getLsbD 0 }
  | timeout (w : Word) (hw : b.Writes (.reg .fdSilence) w) : FdAfterBus b f { f with silence := w }
  | flags (w : Word) (hw : b.Writes (.reg .fdStatus) w) : FdAfterBus b f (f.clearFlags w)
  | pop (w : Word) (hw : b.Writes (.reg .cmd) w) (hd : decode w = .legal .fdPop) :
      FdAfterBus b f { f with queue := f.queue.tail }
  | flush (w : Word) (hw : b.Writes (.reg .cmd) w) (hd : decode w = .legal .fdFlush) : FdAfterBus b f f.dropAsm
  | qclear (w : Word) (hw : b.Writes (.reg .cmd) w) (hd : decode w = .legal .fdQclear) :
      FdAfterBus b f { f with queue := [] }

/-- What the bus access can leave of the CE of `s`: DONE and the error flags always, DONE only falling; anything else
only while no operation is in flight. -/
inductive CeAfterBus (b : BusAccess) (s : State) : Ce → Prop where
  | flags (done illegal busy range : Bool) (hdone : done = true → s.ce.done = true) :
      CeAfterBus b s { s.ce with done := done, errIllegal := illegal, errBusy := busy, errRange := range }
  | crc (hop : s.ce.op = none) (w : Word) (hw : b.Writes (.reg .ceCrc) w) : CeAfterBus b s { s.ce with crc := loHalf w }
  | offset (hop : s.ce.op = none) (w : Word) (hw : b.Writes (.reg .ceOffset) w) :
      CeAfterBus b s { s.ce with offset := loHalf w }
  | length (hop : s.ce.op = none) (w : Word) (hw : b.Writes (.reg .ceLength) w) :
      CeAfterBus b s { s.ce with length := loHalf w }
  | dbuf (hop : s.ce.op = none) (w : Word) (j : Nat) (hw : b.Writes (.dbuf j) w) (hj : j < s.params.dbufBytes) :
      CeAfterBus b s { s.ce with dbuf := storeLanes s.ce.dbuf j w }
  | crcCommand (hop : s.ce.op = none) (w : Word) (hw : b.Writes (.reg .cmd) w)
      (hd : decode w = .legal .ceInit ∨ ∃ x, decode w = .legal (.ceUpdate x)) (crc : Half) :
      CeAfterBus b s { s.ce with crc := crc }
  | start (hop : s.ce.op = none) (w : Word) (hw : b.Writes (.reg .cmd) w) (k : CeKind) (hr : k.InRange s.params)
      (hd : (decode w = .legal .ceCrc16 ∧ k = .crc16 s.ce.offset s.ce.length) ∨
        (decode w = .legal .ceValidate ∧ k = .validate s.ce.length)) :
      CeAfterBus b s (startOp k s).ce

theorem CeAfterBus.same (b : BusAccess) (s : State) : CeAfterBus b s s.ce :=
  .flags s.ce.done s.ce.errIllegal s.ce.errBusy s.ce.errRange id

/-- A raised error is one flag set. -/
theorem CeAfterBus.raise (b : BusAccess) (s : State) (e : Err) : CeAfterBus b s (s.ce.raise e) := by
  cases e with
  | illegal => exact .flags s.ce.done true s.ce.errBusy s.ce.errRange id
  | busy => exact .flags s.ce.done s.ce.errIllegal true s.ce.errRange id
  | range => exact .flags s.ce.done s.ce.errIllegal s.ce.errBusy true id
  | ovf => exact .same b s
  | qovr => exact .same b s

/-- A command's share of step 2 in the FD (41_frame_detector.md R175 to R177). -/
theorem exec_fd {i : Instr} {b : BusAccess} {w : Word} {s t : State} (hw : b.Writes (.reg .cmd) w)
    (hd : decode w = .legal i) (h : exec i s = .next t) : FdAfterBus b s.fd t.fd := by
  rcases exec_cases h with ⟨_, rfl⟩ | ⟨_, _, rfl⟩ | ⟨_, rfl, _⟩ | ⟨_, _, rfl⟩ | ⟨_, x, _, rfl⟩ | ⟨_, _, rfl, _⟩ |
    ⟨_, _, rfl, _⟩ | ⟨rfl, rfl⟩ | ⟨rfl, rfl⟩ | ⟨rfl, rfl⟩
  · exact .same
  · exact .same
  · exact .same
  · exact .same
  · exact .same
  · exact .same
  · exact .same
  · exact .pop w hw hd
  · exact .flush w hw hd
  · exact .qclear w hw hd

/-- Step 2 leaves the FD in one of the states the rules name (41_frame_detector.md R175 to R178). -/
theorem busPhase_fd {b : BusAccess} {s t : State} (h : busPhase b s = .next t) : FdAfterBus b s.fd t.fd := by
  cases b with
  | idle => cases h; exact .same
  | read a => cases h; exact .same
  | write a w =>
    have writes {x : Target} (ha : addrTarget a = x) : (BusAccess.write a w).Writes x w := ⟨a, rfl, ha⟩
    rcases busWrite_cases h with rfl | ⟨_, _, _, rfl⟩ | ⟨ha, i, hd, hi⟩ | ⟨_, rfl⟩ | ⟨_, rfl, _⟩ | ⟨_, _, rfl⟩ |
      ⟨_, _, rfl⟩ | ⟨_, _, rfl⟩ | ⟨_, rfl⟩ | ⟨ha, rfl⟩ | ⟨ha, rfl⟩ | ⟨ha, rfl⟩ | ⟨_, j, _, _, rfl⟩
    · exact .same
    · exact .same
    · exact exec_fd (writes ha) hd hi
    · exact .same
    · exact .same
    · exact .same
    · exact .same
    · exact .same
    · exact .same
    · exact .enable w (writes ha)
    · exact .timeout w (writes ha)
    · exact .flags w (writes ha)
    · exact .same

/-- A command's share of step 2 in the CE (30_encoding.md R118, R119). -/
theorem exec_ce {i : Instr} {b : BusAccess} {w : Word} {s t : State} (hw : b.Writes (.reg .cmd) w)
    (hd : decode w = .legal i) (h : exec i s = .next t) : CeAfterBus b s t.ce := by
  rcases exec_cases h with ⟨_, rfl⟩ | ⟨_, _, rfl⟩ | ⟨_, rfl, _⟩ | ⟨hop, rfl, rfl⟩ | ⟨hop, x, rfl, rfl⟩ |
    ⟨hop, rfl, rfl, hr⟩ | ⟨hop, rfl, rfl, hr⟩ | ⟨_, rfl⟩ | ⟨_, rfl⟩ | ⟨_, rfl⟩
  · exact .same b _
  · exact .raise b s .busy
  · exact .raise b s .range
  · exact .crcCommand hop w hw (.inl hd) _
  · exact .crcCommand hop w hw (.inr ⟨x, hd⟩) _
  · exact .start hop w hw (.crc16 _ _) hr (.inl ⟨hd, rfl⟩)
  · exact .start hop w hw (.validate _) hr (.inr ⟨hd, rfl⟩)
  all_goals exact .same b s

/-- Step 2 leaves the CE in one of the states the rules name (20_memory.md R87, R88). -/
theorem busPhase_ce {b : BusAccess} {s t : State} (h : busPhase b s = .next t) : CeAfterBus b s t.ce := by
  cases b with
  | idle => cases h; exact .same _ s
  | read a => cases h; exact .same _ s
  | write a w =>
    have writes {x : Target} (ha : addrTarget a = x) : (BusAccess.write a w).Writes x w := ⟨a, rfl, ha⟩
    rcases busWrite_cases h with rfl | ⟨_, _, _, rfl⟩ | ⟨ha, i, hd, hi⟩ | ⟨_, rfl⟩ | ⟨_, rfl, _⟩ | ⟨hop, ha, rfl⟩ |
      ⟨hop, ha, rfl⟩ | ⟨hop, ha, rfl⟩ | ⟨_, rfl⟩ | ⟨_, rfl⟩ | ⟨_, rfl⟩ | ⟨_, rfl⟩ | ⟨hop, j, ha, hj, rfl⟩
    · exact .same _ _
    · exact .raise _ s .illegal
    · exact exec_ce (writes ha) hd hi
    · exact .flags _ _ _ _ (by simp +contextual)
    · exact .raise _ s .busy
    · exact .crc hop w (writes ha)
    · exact .offset hop w (writes ha)
    · exact .length hop w (writes ha)
    · exact .same _ _
    · exact .same _ _
    · exact .same _ _
    · exact .same _ _
    · exact .dbuf hop w j (writes ha) hj

/-- Step 2 changes INT_EN by a write to it alone (10_state.md R44). -/
theorem busPhase_intEn {b : BusAccess} {s t : State} (h : busPhase b s = .next t) :
    t.intEn = s.intEn ∨ ∃ w, b.Writes (.reg .intEn) w ∧ t.intEn = w.extractLsb' 0 3 := by
  cases b with
  | idle => cases h; exact .inl rfl
  | read a => cases h; exact .inl rfl
  | write a w =>
    rcases busWrite_cases h with rfl | ⟨_, _, _, rfl⟩ | ⟨_, i, _, hi⟩ | ⟨_, rfl⟩ | ⟨_, rfl, _⟩ | ⟨_, _, rfl⟩ |
      ⟨_, _, rfl⟩ | ⟨_, _, rfl⟩ | ⟨ha, rfl⟩ | ⟨_, rfl⟩ | ⟨_, rfl⟩ | ⟨_, rfl⟩ | ⟨_, j, _, _, rfl⟩
    case inr.inr.inl =>
      rcases exec_cases hi with ⟨_, rfl⟩ | ⟨_, _, rfl⟩ | ⟨_, rfl, _⟩ | ⟨_, _, rfl⟩ | ⟨_, x, _, rfl⟩ |
        ⟨_, _, rfl, _⟩ | ⟨_, _, rfl, _⟩ | ⟨_, rfl⟩ | ⟨_, rfl⟩ | ⟨_, rfl⟩ <;> exact .inl rfl
    case inr.inr.inr.inr.inr.inr.inr.inr.inl => exact .inr ⟨w, ⟨a, rfl, ha⟩, rfl⟩
    all_goals exact .inl rfl

end Sys2Proof.Machine
end

section
/-! The Frame Boundary Detector keeps its invariant (10_state.md R52 to R56; 41_frame_detector.md R160 to R172). -/

namespace Sys2Proof.Machine

/-- The part of `Fd.Inv` that the bus write of an edge keeps. The facts about EN and sil_cnt are not in it: a write to
FD_CTRL or FD_SILENCE can break them, and the FD's own step at the same edge restores them. -/
structure Fd.BufferInv (p : Params) (f : Fd) : Prop where
  asmFits : f.asm.length ≤ p.fb
  overflowFull : f.asmOvf = true → f.asm.length = p.fb
  asmNotValid : NoValidPrefix f.asm
  queueFits : f.queue.length ≤ p.qd
  framesCoherent : ∀ r ∈ f.queue, r.Coherent p

theorem Fd.Inv.bufferInv {p : Params} {f : Fd} (h : f.Inv p) : f.BufferInv p :=
  ⟨h.asmFits, h.overflowFull, h.asmNotValid, h.queueFits, h.framesCoherent⟩

/-- With sil_cnt at 0 and nothing assembled by a disabled FD, the buffers' facts are the whole invariant. -/
theorem Fd.BufferInv.inv {p : Params} {f : Fd} (h : f.BufferInv p) (hcnt : f.silCnt = 0)
    (hen : f.en = false → f.asm = []) : f.Inv p where
  asmFits := h.asmFits
  overflowFull := h.overflowFull
  emptyNotCounting _ := hcnt
  disabledEmpty := hen
  belowTimeout hs := by
    rw [hcnt]
    bv_omega
  asmNotValid := h.asmNotValid
  queueFits := h.queueFits
  framesCoherent := h.framesCoherent

/-- A cycle that only restarts the silence counter of an enabled FD (R168). -/
theorem Fd.BufferInv.restart {p : Params} {f : Fd} (h : f.BufferInv p) (hen : f.en = true) :
    { f with silCnt := 0 }.Inv p :=
  Fd.BufferInv.inv ⟨h.asmFits, h.overflowFull, h.asmNotValid, h.queueFits, h.framesCoherent⟩ rfl (by simp [hen])

theorem noValidPrefix_nil : NoValidPrefix [] := fun k _ => by
  rw [List.take_nil]
  exact isValidFrame_of_short (by decide)

theorem NoValidPrefix.not_valid {l : List Byte} (h : NoValidPrefix l) : isValidFrame l = false := by
  simpa using h l.length le_rfl

/-- The proper beginnings of a sequence with one byte more are the beginnings of the sequence. -/
theorem NoValidPrefix.take_snoc {l : List Byte} (h : NoValidPrefix l) (b : Byte) {k : Nat}
    (hk : k < (l ++ [b]).length) : isValidFrame ((l ++ [b]).take k) = false := by
  have hk : k ≤ l.length := by simpa [Nat.lt_succ_iff] using hk
  rw [List.take_append_of_le_length hk]
  exact h k hk

theorem NoValidPrefix.snoc {l : List Byte} (h : NoValidPrefix l) {b : Byte} (hb : isValidFrame (l ++ [b]) = false) :
    NoValidPrefix (l ++ [b]) := fun k hk => by
  rcases hk.lt_or_eq with hk | rfl
  · exact h.take_snoc b hk
  · rwa [List.take_length]

theorem Fd.BufferInv.dropAsm {p : Params} {f : Fd} (h : f.BufferInv p) : f.dropAsm.BufferInv p where
  asmFits := by simp
  overflowFull := by simp
  asmNotValid := noValidPrefix_nil
  queueFits := h.queueFits
  framesCoherent := h.framesCoherent

/-- The bus write keeps the buffers' facts: FD_POP and FD_QCLEAR only drop frames, FD_FLUSH empties asm. -/
theorem FdAfterBus.bufferInv {p : Params} {b : BusAccess} {f g : Fd} (hg : FdAfterBus b f g) (h : f.BufferInv p) :
    g.BufferInv p := by
  obtain ⟨asmFits, overflowFull, asmNotValid, queueFits, framesCoherent⟩ := h
  cases hg with
  | same | enable | timeout | flags => exact ⟨asmFits, overflowFull, asmNotValid, queueFits, framesCoherent⟩
  | pop =>
    refine ⟨asmFits, overflowFull, asmNotValid, ?_, fun r hr => framesCoherent r (List.mem_of_mem_tail hr)⟩
    simp only [List.length_tail]
    omega
  | flush => exact Fd.BufferInv.dropAsm ⟨asmFits, overflowFull, asmNotValid, queueFits, framesCoherent⟩
  | qclear => exact ⟨asmFits, overflowFull, asmNotValid, Nat.zero_le _, by simp⟩

/-- A coherent frame may enter the queue. -/
theorem Fd.emit_inv {p : Params} {f : Fd} {c : Cause} (queueFits : f.queue.length ≤ p.qd)
    (framesCoherent : ∀ r ∈ f.queue, r.Coherent p) (hnew : Frame.Coherent p ⟨f.asm, c⟩) : (f.emit p c).Inv p := by
  refine Fd.BufferInv.inv ⟨by simp, by simp, ?_, ?_, fun r hr => ?_⟩ (by simp) (by simp)
  · rw [Fd.emit_asm]
    exact noValidPrefix_nil
  · rw [Fd.emit_queue]
    split
    · simpa [Nat.succ_le_iff]
    · exact queueFits
  · rw [Fd.emit_queue] at hr
    split at hr
    · rcases List.mem_append.1 hr with hr | hr
      · exact framesCoherent r hr
      · exact List.mem_singleton.1 hr ▸ hnew
    · exact framesCoherent r hr

/-- A byte completes a valid frame, joins asm, or is dropped because asm is full (R165 to R167). -/
theorem Fd.BufferInv.receive {p : Params} {f : Fd} (h : f.BufferInv p) (hen : f.en = true) (b : Byte) :
    (f.receive p b).Inv p := by
  unfold Fd.receive
  split
  next hroom =>
    have hovf : f.asmOvf = false := by
      by_contra hovf
      have := h.overflowFull (by simpa using hovf)
      omega
    have hfits : (f.asm ++ [b]).length ≤ p.fb := by simpa
    dsimp only
    split
    next hv =>
      exact Fd.emit_inv h.queueFits h.framesCoherent
        { notEmpty := by simp
          fits := hfits
          validIff := by simp [hv]
          overflowFull := by simp
          noValidStart := fun k hk => h.asmNotValid.take_snoc b hk }
    next hv =>
      have hasm : NoValidPrefix (f.asm ++ [b]) := h.asmNotValid.snoc (by simpa using hv)
      exact Fd.BufferInv.inv ⟨hfits, by simp [hovf], hasm, h.queueFits, h.framesCoherent⟩ rfl (by simp [hen])
  next hfull =>
    have hlen : f.asm.length = p.fb := Nat.le_antisymm h.asmFits (Nat.not_lt.1 hfull)
    exact Fd.BufferInv.inv ⟨h.asmFits, fun _ => hlen, h.asmNotValid, h.queueFits, h.framesCoherent⟩
      rfl (by simp [hen, Fd.raise])

@[simp] theorem satIncr_toNat (c : Word) : (satIncr c).toNat = min (c.toNat + 1) (2 ^ 32 - 1) := by
  rw [satIncr, BitVec.toNat_ofNat]
  omega

/-- A silent cycle ends a frame that is not valid, or counts below a timeout that is on (R168, R170, R171). -/
theorem Fd.BufferInv.silent {p : Params} {f : Fd} (h : f.BufferInv p) (hen : f.en = true) : (f.silent p).Inv p := by
  unfold Fd.silent
  split
  next hempty =>
    exact h.restart hen
  next hne =>
    have hne : f.asm ≠ [] := by simpa using hne
    split
    next hto =>
      refine Fd.emit_inv h.queueFits h.framesCoherent
        { notEmpty := List.length_pos_iff.2 hne
          fits := h.asmFits
          validIff := ?_
          overflowFull := ?_
          noValidStart := fun k hk => h.asmNotValid k hk.le }
      · rw [h.asmNotValid.not_valid]
        split <;> simp
      · split
        next hovf => exact fun _ => h.overflowFull hovf
        next => simp
    next hto =>
      exact
        { asmFits := h.asmFits
          overflowFull := h.overflowFull
          emptyNotCounting := fun he => absurd he hne
          disabledEmpty := by simp [hen]
          belowTimeout := fun hs => by
            rw [Fd.timeout_iff, not_and] at hto
            have := hto hs
            simp only [satIncr_toNat]
            omega
          asmNotValid := h.asmNotValid
          queueFits := h.queueFits
          framesCoherent := h.framesCoherent }

/-- The FD's step restores the whole invariant. -/
theorem Fd.BufferInv.step {p : Params} {f : Fd} (h : f.BufferInv p) (e : EdgeInput) : (f.step p e).Inv p := by
  cases hen : f.en with
  | false =>
    rw [Fd.step_of_disabled p e hen]
    exact h.dropAsm.inv rfl (fun _ => rfl)
  | true =>
    cases hv : e.rxValid with
    | true =>
      rw [Fd.step_of_byte p hen hv]
      exact h.receive hen _
    | false =>
      cases ha : e.rxActive with
      | true =>
        rw [Fd.step_of_active p hen hv ha]
        exact h.restart hen
      | false =>
        rw [Fd.step_of_silent p hen hv ha]
        exact h.silent hen

theorem Fd.reset_inv (p : Params) : (Fd.reset p).Inv p :=
  Fd.BufferInv.inv ⟨Nat.zero_le _, by simp [Fd.reset], noValidPrefix_nil, Nat.zero_le _, by simp [Fd.reset]⟩ rfl
    (fun _ => rfl)

end Sys2Proof.Machine
end

section
/-! The CRC Engine keeps its invariant (10_state.md R51, R57; 40_crc_engine.md R142 to R149). -/

namespace Sys2Proof.Machine

/-- The CE's invariant speaks of DBUF, its epoch and the operation in flight alone. -/
theorem Ce.Inv.congr {p : Params} {c c' : Ce} (h : c.Inv p) (hop : c'.op = c.op) (hdbuf : c'.dbuf = c.dbuf)
    (hepoch : c'.epoch = c.epoch) : c'.Inv p where
  dbufCanonical := hdbuf ▸ h.dbufCanonical
  dbufInRange := hdbuf ▸ h.dbufInRange
  opCoherent op hop' := by
    obtain ⟨snapIsDbuf, inRange, cursorInRange, workIsRunningCrc⟩ := h.opCoherent op (hop ▸ hop')
    exact ⟨hdbuf ▸ snapIsDbuf, inRange, cursorInRange, hepoch ▸ workIsRunningCrc⟩

/-- Without an operation in flight the invariant is DBUF's. -/
theorem Ce.inv_of_free {p : Params} {c : Ce} (hop : c.op = none) (hwf : c.dbuf.wf) (hbelow : c.dbuf.below p.dbufBytes) :
    c.Inv p :=
  ⟨hwf, hbelow, fun op h => by simp [hop] at h⟩

/-- An accepted operation starts with the initial CRC of no bytes. -/
theorem startOp_ce_inv {s : State} {k : CeKind} (h : s.ce.Inv s.params) (hk : k.InRange s.params) :
    (startOp k s).ce.Inv s.params where
  dbufCanonical := h.dbufCanonical
  dbufInRange := h.dbufInRange
  opCoherent op hop := by
    obtain rfl := Option.some.inj hop
    refine ⟨rfl, ?_, Nat.zero_le _, rfl⟩
    cases k <;> exact hk

/-- A word inside DBUF fits, since the size is a multiple of 4 (00_scope.md R8, 20_memory.md R87). -/
theorem BusAccess.Writes.dbuf_fits {b : BusAccess} {j : Nat} {w : Word} (hw : b.Writes (.dbuf j) w) {p : Params}
    (hp : p.legal = true) (hj : j < p.dbufBytes) : j + 3 < p.dbufBytes := by
  obtain ⟨a, _, ha⟩ := hw
  have := dbuf_target_aligned ha
  obtain ⟨hmod, _⟩ := p.legal_iff.1 hp
  omega

theorem CeAfterBus.inv {b : BusAccess} {s : State} {c : Ce} (hc : CeAfterBus b s c) (hp : s.params.legal = true)
    (h : s.ce.Inv s.params) : c.Inv s.params := by
  cases hc with
  | flags | crc | offset | length | crcCommand => exact h.congr rfl rfl rfl
  | dbuf hop w j hw hj =>
    exact Ce.inv_of_free hop (storeLanes_wf j w h.dbufCanonical) (storeLanes_below w h.dbufInRange (hw.dbuf_fits hp hj))
  | start hop w hw k hr hd => exact startOp_ce_inv h hr

/-- Moving the cursor by one byte steps the running CRC by that byte (40_crc_engine.md R131, R150). -/
theorem InFlight.Coherent.advance {p : Params} {c : Ce} {op : InFlight} (h : op.Coherent p c) (n : Nat) :
    (InFlight.advance c.epoch n op).Coherent p c := by
  induction n generalizing op with
  | zero => exact h
  | succ n ih =>
    unfold InFlight.advance
    split
    next hlt => exact ih ⟨h.snapIsDbuf, h.inRange, hlt, by simp only [crc16, ← h.workIsRunningCrc]⟩
    next => exact h

theorem Ce.Inv.progress {p : Params} {c : Ce} (h : c.Inv p) (stride : Nat) : (c.progress stride).Inv p := by
  cases hop : c.op with
  | none => rwa [Ce.progress_of_none hop]
  | some op =>
    cases hw : op.wait with
    | zero =>
      rw [Ce.progress_of_done hop hw]
      exact Ce.inv_of_free (by simp) (by simpa using h.dbufCanonical) (by simpa using h.dbufInRange)
    | succ n =>
      obtain ⟨snapIsDbuf, inRange, cursorInRange, workIsRunningCrc⟩ := (h.opCoherent op hop).advance stride
      simp only [Ce.progress, hop, hw]
      refine ⟨h.dbufCanonical, h.dbufInRange, fun op' hop' => ?_⟩
      obtain rfl := Option.some.inj hop'
      exact ⟨snapIsDbuf, inRange, cursorInRange, workIsRunningCrc⟩

/-- Step 3 of an edge, with or without an operation in flight before it. -/
theorem Ce.Inv.cePhase {p : Params} {m : State} (h : m.ce.Inv p) (b : Bool) : (cePhase b m).ce.Inv p := by
  cases b with
  | false => exact h
  | true => exact h.progress _

end Sys2Proof.Machine
end

section
/-! Every step keeps the machine's invariant. -/

namespace Sys2Proof.Machine

theorem State.Inv.resetBlock {s : State} (h : s.params.legal = true) : s.resetBlock.Inv where
  paramsLegal := h
  ceInv := Ce.inv_of_free rfl List.Pairwise.nil (by simp [Ce.reset])
  fdInv := Fd.reset_inv s.params
  resetInPast := le_rfl

/-- Settles O53: a reset edge gives the invariant anew; at any other edge the bus write keeps the CE's invariant and the
facts about the FD's buffers, the CE's progress keeps the running CRC, and the FD's step restores the rest. -/
theorem stepKeepsTheInvariant : Obligations.StepKeepsTheInvariant := by
  intro s t h hstep
  rcases step_cases hstep with ⟨_, rfl⟩ | ⟨_, m, hm, rfl⟩
  · exact State.Inv.resetBlock h.paramsLegal
  · obtain ⟨hparams, _, _, hedges, hepoch⟩ := busPhase_keeps hm
    have hparams : m.params = s.params := hparams
    have hce : m.ce.Inv s.params := (busPhase_ce hm).inv h.paramsLegal h.ceInv
    have hfd : m.fd.BufferInv s.params := (busPhase_fd hm).bufferInv h.fdInv.bufferInv
    have hpast : s.ce.epoch ≤ s.edges + 1 := Nat.le_succ_of_le h.resetInPast
    exact
      { paramsLegal := by simpa [hparams] using h.paramsLegal
        ceInv := by simpa [hparams] using Ce.Inv.cePhase hce s.ce.busy
        fdInv := by simpa [hparams] using hfd.step s.nextInput
        resetInPast := by simpa [apply_ite Ce.epoch, hedges, hepoch] using hpast }

end Sys2Proof.Machine
end

section
/-! What a whole edge can do: its steps written out on the state (10_state.md R62), what alone drops a frame of the
queue, which flag wins at one edge, and what a completed operation depends on. -/

namespace Sys2Proof.Machine

/-! ### The steps of an edge -/

/-- Steps 3 and 4 of an edge, as one update of the state. -/
theorem fdPhase_cePhase (e : EdgeInput) (b : Bool) (m : State) :
    fdPhase e (cePhase b m) =
      { m with
        ce := if b then m.ce.progress (Config.ceStride m.edges) else m.ce
        fd := m.fd.step m.params e } := by
  cases b <;> rfl

theorem busWrite_cmd {a : BusAddr} (h : a &&& 0x1FFFC = 0x00008) (w : Word) (s : State) :
    busWrite a w s = issue w s := by
  have target : addrTarget a = .reg .cmd := by
    rw [addrTarget, wordAddr, h]
    rfl
  rw [busWrite, target]
  rfl

/-- Settles O5: the four statements are one step with four bus phases; at CMD's address the bus write is `issue`. -/
theorem stepRunsTheWrittenCommand : Obligations.StepRunsTheWrittenCommand := by
  intro s e rest hs hrst s₀ after
  have input : s.nextInput = e := nextInput_of_cycle hs
  have begin : s.beginEdge = s₀ (s.readData e.bus) := by
    rw [State.beginEdge, nextScript_of_cycle hs, input]
  have steps {m : State} (hm : busPhase e.bus (s₀ (s.readData e.bus)) = .next m) : step s = .next (after m) := by
    rw [step_of_busPhase (m := m) (by rwa [input]) (by rwa [begin, input]), fdPhase_cePhase, input]
    rfl
  have written {a w m} (hb : e.bus = .write a w) (hm : busWrite a w (s₀ none) = .next m) : step s = .next (after m) :=
    steps (by rw [hb]; exact hm)
  refine ⟨fun hb => steps (by rw [hb]; rfl), fun a hb => steps (by rw [hb]; rfl), fun a w hb m hm => written hb hm,
    fun a w hb ha => ⟨fun i m hd hm => written hb ?_, fun err hd => written hb ?_⟩⟩
  · rw [busWrite_cmd ha, issue, hd]
    exact hm
  · rw [busWrite_cmd ha, issue, hd]
    rfl

/-! ### The queue -/

/-- Only FD_POP and FD_QCLEAR change the queue in step 2. -/
theorem FdAfterBus.queue {b : BusAccess} {f g : Fd} (h : FdAfterBus b f g) :
    (∃ w, b.Writes (.reg .cmd) w ∧ (decode w = .legal .fdPop ∨ decode w = .legal .fdQclear)) ∨ g.queue = f.queue := by
  cases h with
  | same | enable | timeout | flags | flush => exact .inr rfl
  | pop w hw hd => exact .inl ⟨w, hw, .inl hd⟩
  | qclear w hw hd => exact .inl ⟨w, hw, .inr hd⟩

/-- Settles O58: the FD's step only adds to the queue, so what removes a frame is the bus write. -/
theorem queueLosesFramesOnlyByCommand : Obligations.QueueLosesFramesOnlyByCommand := by
  intro s t hstep hrst
  rcases step_cases hstep with ⟨hrst', _⟩ | ⟨_, m, hm, rfl⟩
  · simp [hrst] at hrst'
  rcases (busPhase_fd hm).queue with ⟨w, ⟨a, hb, ha⟩, hd⟩ | hqueue
  · exact .inl ⟨a, w, hb, ha, hd⟩
  · have grows := Fd.step_queue m.params s.nextInput m.fd
    rw [hqueue] at grows
    exact .inr (by simpa using grows)

/-! ### Set wins over clear -/

/-- An operation with no edge left to wait completes at the next edge, whatever the bus access. -/
theorem step_done_of_wait_zero {s : State} {op : InFlight} (hrst : s.nextInput.rst = false) (hop : s.ce.op = some op)
    (hw : op.wait = 0) : ∃ t, step s = .next t ∧ t.ce.done = true := by
  obtain ⟨m, hm⟩ := busPhase_isNext s.nextInput.bus s.beginEdge
  have hkept : m.ce.op = some op := (busPhase_keeps_inFlight hm (by simp [hop])).1.trans hop
  refine ⟨_, step_of_busPhase hrst hm, ?_⟩
  simp [(Ce.busy_eq_true_iff s.ce).2 (by simp [hop]), Ce.progress_of_done hkept hw]

/-- An edge that writes FD_STATUS clears the flags first and then steps the FD (10_state.md R62). -/
theorem step_fd_of_flags_write {s : State} {w : Word} (hrst : s.nextInput.rst = false)
    (hbus : s.nextInput.bus = .write (regAddr .fdStatus) w) :
    ∃ t, step s = .next t ∧ t.fd = (s.fd.clearFlags w).step s.params s.nextInput := by
  have hm : busPhase s.nextInput.bus s.beginEdge = .next (s.beginEdge.withFd (s.fd.clearFlags w)) := by
    rw [hbus, busPhase, busWrite, addrTarget_regAddr]
    rfl
  exact ⟨_, step_of_busPhase hrst hm, by simp⟩

/-- A byte that finds asm full sets ERR_OVF (R166). -/
theorem Fd.step_errOvf_of_full {p : Params} {e : EdgeInput} {f : Fd} (hen : f.en = true) (hv : e.rxValid = true)
    (hfull : p.fb ≤ f.asm.length) : (f.step p e).errOvf = true := by
  simp [Fd.step_of_byte p hen hv, Fd.receive, Nat.not_lt.2 hfull]

/-- A valid frame that finds the queue full sets ERR_QOVR at its last byte (R167, R172). -/
theorem Fd.step_errQovr_of_valid {p : Params} {e : EdgeInput} {f : Fd} (hen : f.en = true) (hv : e.rxValid = true)
    (hroom : f.asm.length < p.fb) (hvalid : isValidFrame (f.asm ++ [e.rxData]) = true) (hfull : p.qd ≤ f.queue.length) :
    (f.step p e).errQovr = true := by
  simp [Fd.step_of_byte p hen hv, Fd.receive, hroom, hvalid, hfull]

/-- A frame that silence ends sets ERR_QOVR if it finds the queue full (R170, R172). -/
theorem Fd.step_errQovr_of_timeout {p : Params} {e : EdgeInput} {f : Fd} (hen : f.en = true) (hv : e.rxValid = false)
    (ha : e.rxActive = false) (hasm : f.asm ≠ []) (hto : f.timeout = true) (hfull : p.qd ≤ f.queue.length) :
    (f.step p e).errQovr = true := by
  simp [Fd.step_of_silent p hen hv ha, Fd.silent, hasm, hto, hfull]

/-- Settles O43: the bus write clears a flag in step 2, and the CE and the FD set it in steps 3 and 4. -/
theorem setWinsOverClear : Obligations.SetWinsOverClear := by
  intro s e rest w hs hrst
  have input : s.nextInput = e := nextInput_of_cycle hs
  have cleared (hb : e.bus = .write 0x00028 w) {P : Fd → Prop} (hP : P ((s.fd.clearFlags w).step s.params e)) :
      ∃ t, step s = .next t ∧ P t.fd := by
    obtain ⟨t, hstep, hfd⟩ := step_fd_of_flags_write (s := s) (w := w) (by rwa [input]) (by rw [input]; exact hb)
    exact ⟨t, hstep, by rwa [hfd, input]⟩
  refine ⟨fun op hop hw _ => step_done_of_wait_zero (by rwa [input]) hop hw, fun hb hen hv hfull => ?_,
    fun hb hen hv hroom hvalid hfull => ?_, fun hb hen hv ha hasm hsil hcnt hfull => ?_⟩
  · exact cleared hb (P := fun f => f.errOvf = true) (Fd.step_errOvf_of_full hen hv hfull)
  · exact cleared hb (P := fun f => f.errQovr = true) (Fd.step_errQovr_of_valid hen hv hroom hvalid hfull)
  · exact cleared hb (P := fun f => f.errQovr = true)
      (Fd.step_errQovr_of_timeout hen hv ha hasm ((Fd.timeout_iff _).2 ⟨hsil, hcnt⟩) hfull)

/-! ### The result and DBUF's unwritten bytes -/

/-- A written byte does not depend on which reset came before. -/
theorem memByte_epoch {m : Memory} {i : Nat} (h : (m.read? i).isSome = true) (epoch epoch' : Nat) :
    memByte m epoch i = memByte m epoch' i := by
  obtain ⟨b, hb⟩ := Option.isSome_iff_exists.1 h
  rw [memByte_of_read? hb, memByte_of_read? hb]

/-- Settles O29: each result is a function of the bytes it reads, and a written byte has the same value in every epoch. -/
theorem writtenDbufGivesSpecifiedResult : Obligations.WrittenDbufGivesSpecifiedResult := by
  intro c op epoch hwritten
  cases hk : op.kind with
  | crc16 off len =>
    rw [hk] at hwritten
    have result := crc16_congr (fun i hi => memByte_epoch (hwritten i hi) epoch c.epoch)
    simp only [Ce.complete, hk, result]
  | validate len =>
    rw [hk] at hwritten
    have result : checkFrame (memByte op.snap epoch) len.toNat = checkFrame (memByte op.snap c.epoch) len.toNat :=
      checkFrame_congr fun h6 i hi => memByte_epoch (by simpa using hwritten h6 i hi) epoch c.epoch
    simp only [Ce.complete, hk, result]

end Sys2Proof.Machine
end

section
/-! Which events alone change the CE's registers, DBUF and the operation in flight (10_state.md R33 to R42, R51, R57). -/

namespace Sys2Proof.Machine

/-- The CE `c` after an edge from `s` with the bus access `b` differs from the CE before it only by the events that the
rules name. -/
structure Ce.ChangesByRule (b : BusAccess) (s : State) (c : Ce) : Prop where
  crc : c.crc ≠ s.ce.crc →
    (s.ce.op = none ∧ ∃ w, b.Writes (.reg .ceCrc) w ∨
      (b.Writes (.reg .cmd) w ∧ (decode w = .legal .ceInit ∨ ∃ x, decode w = .legal (.ceUpdate x)))) ∨
    ∃ op off len, s.ce.op = some op ∧ op.wait = 0 ∧ op.kind = .crc16 off len
  vreason : c.vreason ≠ s.ce.vreason → ∃ op len, s.ce.op = some op ∧ op.wait = 0 ∧ op.kind = .validate len
  offset : c.offset ≠ s.ce.offset → s.ce.op = none ∧ ∃ w, b.Writes (.reg .ceOffset) w ∧ c.offset = w.extractLsb' 0 16
  length : c.length ≠ s.ce.length → s.ce.op = none ∧ ∃ w, b.Writes (.reg .ceLength) w ∧ c.length = w.extractLsb' 0 16
  dbuf : ∀ i, c.dbufByte i ≠ s.ce.dbufByte i →
    s.ce.op = none ∧ ∃ w j k, b.Writes (.dbuf j) w ∧ j < s.params.dbufBytes ∧ k < 4 ∧ i = j + k ∧
      c.dbufByte i = w.extractLsb' (8 * k) 8
  done : s.ce.done = false → c.done = true → ∃ op, s.ce.op = some op ∧ op.wait = 0
  started : s.ce.op = none → c.op ≠ none → ∃ w, b.Writes (.reg .cmd) w ∧
    ((decode w = .legal .ceCrc16 ∧ s.ce.offset.toNat + s.ce.length.toNat ≤ s.params.dbufBytes) ∨
      (decode w = .legal .ceValidate ∧ s.ce.length.toNat ≤ s.params.dbufBytes))
  inFlight : ∀ op, s.ce.op = some op →
    (op.wait = 0 ∧ c.op = none) ∨
    ∃ op' : InFlight, c.op = some op' ∧ op'.kind = op.kind ∧ op'.snap = op.snap ∧ op.wait = op'.wait + 1

/-- A byte that a word store changes lies in one of the word's four lanes and takes the lane's value
(20_memory.md R87). -/
theorem Ce.dbufByte_storeLanes_ne {c : Ce} {j : Nat} {w : Word} {i : Nat}
    (h : { c with dbuf := storeLanes c.dbuf j w }.dbufByte i ≠ c.dbufByte i) :
    ∃ k, k < 4 ∧ i = j + k ∧ { c with dbuf := storeLanes c.dbuf j w }.dbufByte i = w.extractLsb' (8 * k) 8 := by
  have inside : j ≤ i ∧ i < j + 4 := by
    by_contra houtside
    exact h (by simp only [Ce.dbufByte, memByte, storeLanes_read_outside c.dbuf j w (i := i) (by omega)])
  obtain ⟨k, rfl⟩ := Nat.exists_eq_add_of_le inside.1
  have hk : k < 4 := by omega
  exact ⟨k, hk, rfl, memByte_of_read? (storeLanes_read_inside c.dbuf j w hk) c.epoch⟩

/-- Without an operation in flight the CE is what the bus write left. -/
theorem CeAfterBus.changesByRule_of_free {b : BusAccess} {s : State} {c : Ce} (hc : CeAfterBus b s c)
    (hop : s.ce.op = none) : c.ChangesByRule b s where
  crc hne := by
    cases hc with
    | crc _ w hw => exact .inl ⟨hop, w, .inl hw⟩
    | crcCommand _ w hw hd => exact .inl ⟨hop, w, .inr ⟨hw, hd⟩⟩
    | _ => exact absurd rfl hne
  vreason hne := by cases hc <;> exact absurd rfl hne
  offset hne := by
    cases hc with
    | offset _ w hw => exact ⟨hop, w, hw, rfl⟩
    | _ => exact absurd rfl hne
  length hne := by
    cases hc with
    | length _ w hw => exact ⟨hop, w, hw, rfl⟩
    | _ => exact absurd rfl hne
  dbuf i hne := by
    cases hc with
    | dbuf _ w j hw hj =>
      obtain ⟨k, hk, hi, hbyte⟩ := Ce.dbufByte_storeLanes_ne hne
      exact ⟨hop, w, j, k, hw, hj, hk, hi, hbyte⟩
    | _ => exact absurd rfl hne
  done hfalse htrue := by
    have hdone : s.ce.done = true := by
      cases hc with
      | flags done illegal busy range hdone => exact hdone htrue
      | _ => exact htrue
    simp [hfalse] at hdone
  started _ hne := by
    cases hc with
    | start _ w hw k hr hd =>
      refine ⟨w, hw, ?_⟩
      rcases hd with ⟨hd, rfl⟩ | ⟨hd, rfl⟩
      · exact .inl ⟨hd, hr⟩
      · exact .inr ⟨hd, hr⟩
    | _ => exact absurd hop hne
  inFlight op hsome := by simp [hop] at hsome

/-- A completion changes the one result register of its command, sets DONE, and frees the CE (40_crc_engine.md R143,
R148). -/
theorem CeAfterBus.changesByRule_of_complete {b : BusAccess} {s : State} {c : Ce} {op : InFlight}
    (hc : CeAfterBus b s c) (hop : s.ce.op = some op) (hw : op.wait = 0) : (c.complete op).ChangesByRule b s := by
  cases hc with
  | flags done illegal busy range hdone =>
    exact
      { crc := fun hne => by
          cases hk : op.kind with
          | crc16 off len => exact .inr ⟨op, off, len, hop, hw, hk⟩
          | validate len => simp [Ce.complete, hk] at hne
        vreason := fun hne => by
          cases hk : op.kind with
          | crc16 off len => simp [Ce.complete, hk] at hne
          | validate len => exact ⟨op, len, hop, hw, hk⟩
        offset := fun hne => absurd (Ce.complete_offset op _) hne
        length := fun hne => absurd (Ce.complete_length op _) hne
        dbuf := fun i hne => absurd (by simp [Ce.dbufByte]) hne
        done := fun _ _ => ⟨op, hop, hw⟩
        started := fun hnone => by simp [hop] at hnone
        inFlight := fun op' hop' => by
          obtain rfl := Option.some.inj (hop.symm.trans hop')
          exact .inl ⟨hw, Ce.complete_op op _⟩ }
  | crc hnone | offset hnone | length hnone | dbuf hnone | crcCommand hnone | start hnone => simp [hop] at hnone

/-- An operation that waits moves nothing but itself (40_crc_engine.md R149). -/
theorem CeAfterBus.changesByRule_of_wait {b : BusAccess} {s : State} {c : Ce} {op op' : InFlight}
    (hc : CeAfterBus b s c) (hop : s.ce.op = some op) (hkind : op'.kind = op.kind) (hsnap : op'.snap = op.snap)
    (hwait : op.wait = op'.wait + 1) : Ce.ChangesByRule b s { c with op := some op' } := by
  cases hc with
  | flags done illegal busy range hdone =>
    exact
      { crc := fun hne => absurd rfl hne
        vreason := fun hne => absurd rfl hne
        offset := fun hne => absurd rfl hne
        length := fun hne => absurd rfl hne
        dbuf := fun i hne => absurd rfl hne
        done := fun hfalse htrue => by simp [hdone htrue] at hfalse
        started := fun hnone => by simp [hop] at hnone
        inFlight := fun x hx => by
          obtain rfl := Option.some.inj (hop.symm.trans hx)
          exact .inr ⟨op', rfl, hkind, hsnap, hwait⟩ }
  | crc hnone | offset hnone | length hnone | dbuf hnone | crcCommand hnone | start hnone => simp [hop] at hnone

/-- Steps 2 and 3 of an edge change the CE only by the rules' events. -/
theorem cePhase_changesByRule {b : BusAccess} {s m : State} (hm : busPhase b s = .next m) :
    (cePhase s.ce.busy m).ce.ChangesByRule b s := by
  have hc : CeAfterBus b s m.ce := busPhase_ce hm
  cases hop : s.ce.op with
  | none =>
    rw [(Ce.busy_eq_false_iff s.ce).2 hop]
    exact hc.changesByRule_of_free hop
  | some op =>
    have hkept : m.ce.op = some op := (busPhase_keeps_inFlight hm (by simp [hop])).1.trans hop
    rw [(Ce.busy_eq_true_iff s.ce).2 (by simp [hop]), cePhase_ce, if_pos rfl]
    cases hw : op.wait with
    | zero =>
      rw [Ce.progress_of_done hkept hw]
      exact hc.changesByRule_of_complete hop hw
    | succ n =>
      obtain ⟨op', hkind, hsnap, hwait, hprogress⟩ := Ce.progress_of_wait hkept hw (Config.ceStride m.edges)
      rw [hprogress]
      exact hc.changesByRule_of_wait hop hkind hsnap (by omega)

/-- Settles O57: the CE's registers by `cePhase_changesByRule`, INT_EN by the bus write alone. -/
theorem resultRegistersChangeOnlyByRule : Obligations.ResultRegistersChangeOnlyByRule := by
  intro s t hstep hrst
  rcases step_cases hstep with ⟨hrst', _⟩ | ⟨_, m, hm, rfl⟩
  · simp [hrst] at hrst'
  · obtain ⟨crc, vreason, offset, length, dbuf, done, started, inFlight⟩ := cePhase_changesByRule hm
    refine ⟨crc, vreason, offset, length, dbuf, fun hne => ?_, done, started, inFlight⟩
    rw [fdPhase_intEn, cePhase_intEn] at hne ⊢
    exact (busPhase_intEn hm).resolve_left hne

end Sys2Proof.Machine
end

section
/-! The fields of the status words, FD_HEAD and the FRAME window (10_state.md R39 to R50, R59; 20_memory.md R89, R90). -/

namespace Sys2Proof.Machine

/-! ### A word's fields -/

/-- A field `v` placed at bit `k` of a bus word is read back there. -/
@[simp] theorem extractLsb'_field {n : Nat} (v : BitVec n) {k : Nat} (h : k + n ≤ 32) :
    (v.setWidth 32 <<< k).extractLsb' k n = v := by
  apply BitVec.eq_of_getLsbD_eq
  intro i hi
  simp [hi, show k + i < 32 by omega]

/-- A field at bit `k` is 0 in every range of bits that it does not meet. -/
@[simp] theorem extractLsb'_field_apart {n : Nat} (v : BitVec n) {k lo len : Nat} (h : lo + len ≤ k ∨ k + n ≤ lo) :
    (v.setWidth 32 <<< k).extractLsb' lo len = 0#len := by
  apply BitVec.eq_of_getLsbD_eq
  intro i hi
  rcases h with h | h
  · simp [show lo + i < k by omega]
  · simp [BitVec.getLsbD_of_ge v (lo + i - k) (by omega)]

/-- A flag is 0 in every range of bits without its own. -/
@[simp] theorem extractLsb'_bitAt_apart (b : Bool) {n lo len : Nat} (h : lo + len ≤ n ∨ n < lo) :
    (bitAt b n).extractLsb' lo len = 0#len :=
  extractLsb'_field_apart (BitVec.ofBool b) h

/-- A flag stands in its own bit alone. -/
@[simp] theorem getElem_bitAt (b : Bool) (n : Nat) {i : Nat} (hi : i < 32) :
    (bitAt b n)[i] = (b && decide (i = n)) := by
  by_cases h : i = n
  · simp [bitAt, h]
  · simp [bitAt, h]
    omega

/-! ### CE_STATUS -/

/-- Settles O35: the flags and VREASON's code are fields of the word that do not meet. -/
theorem ceStatusFields : Obligations.CeStatusFields := by
  intro s w
  have hw : w = s.ce.statusWord := busRead_regAddr s .ceStatus
  rw [hw]
  refine ⟨?busy, ?_, ?valid, ?_, ?vreason, ?_, ?_, ?_, ?_, ?_⟩
  case busy => simpa [Ce.statusWord] using s.ce.busy_eq_true_iff
  case valid => simp [Ce.statusWord, Ce.valid]
  case vreason =>
    have field : s.ce.statusWord.extractLsb' 4 3 = s.ce.vreason.code := by simp [Ce.statusWord, BitVec.extractLsb'_or]
    rw [field]
    cases s.ce.vreason <;> rfl
  all_goals simp [Ce.statusWord, BitVec.extractLsb'_or]

/-! ### FD_STATUS and FD_ASMLEN -/

/-- Settles O36: as for CE_STATUS; the legal FB and QD make the two lengths fit their fields. -/
theorem fdStatusFields : Obligations.FdStatusFields := by
  intro s hp hqueue hasm w
  have hw : w = s.fd.statusWord s.params := busRead_regAddr s .fdStatus
  have hlen : busRead s 0x0002C = (BitVec.ofNat 16 s.fd.asm.length).setWidth 32 := busRead_regAddr s .fdAsmlen
  obtain ⟨_, _, ⟨_, hfb⟩, ⟨_, hqd⟩, _⟩ := s.params.legal_iff.1 hp
  rw [hw, hlen]
  refine ⟨?_, ?_, ?_, ?_, ?_, ?_, ?_, ?_, ?qcount, ?_, ?asmlen⟩
  case qcount =>
    have field : (s.fd.statusWord s.params).extractLsb' 16 8 = BitVec.ofNat 8 s.fd.queue.length := by
      simp [Fd.statusWord, BitVec.extractLsb'_or]
    rw [field, BitVec.toNat_ofNat]
    omega
  case asmlen =>
    simp only [BitVec.toNat_setWidth, BitVec.toNat_ofNat]
    omega
  all_goals simp [Fd.statusWord, BitVec.extractLsb'_or, Fd.qne, Fd.qfull]

/-! ### FD_HEAD and the FRAME window -/

theorem busRead_frame (s : State) {a : BusAddr} (h : 0x4000 ≤ a.toNat) (h' : a.toNat < 0x8000) :
    busRead s a = lanes s.fd.headByte (a.toNat / 4 * 4 - 0x4000) := by
  rw [busRead, addrTarget_frame h h']

/-- Byte lane `k` of a window's word (20_memory.md R90). -/
theorem lanes_extract (byte : Nat → Byte) (j : Nat) {k : Nat} (hk : k < 4) :
    (lanes byte j).extractLsb' (8 * k) 8 = byte (j + k) := by
  have right {n : Nat} (x : BitVec n) (b : Byte) : (x ++ b).extractLsb' 0 8 = b := BitVec.extractLsb'_append_eq_right
  unfold lanes
  have hk : k = 0 ∨ k = 1 ∨ k = 2 ∨ k = 3 := by omega
  rcases hk with rfl | rfl | rfl | rfl
  · exact right _ _
  · rw [BitVec.extractLsb'_append_eq_of_le (by decide)]
    exact right _ _
  · rw [BitVec.extractLsb'_append_eq_of_le (by decide), BitVec.extractLsb'_append_eq_of_le (by decide)]
    exact right _ _
  · rw [BitVec.extractLsb'_append_eq_of_le (by decide), BitVec.extractLsb'_append_eq_of_le (by decide)]
    exact BitVec.extractLsb'_append_eq_left

/-- A read of the FRAME window at index `4 * m` shows byte `4 * m + k` in lane `k` (20_memory.md R89, R90). -/
theorem busRead_frame_lane (s : State) {m k : Nat} (hm : m < 4096) (hk : k < 4) :
    (busRead s (BitVec.ofNat 17 (0x4000 + 4 * m))).extractLsb' (8 * k) 8 = s.fd.headByte (4 * m + k) := by
  have haddr : (BitVec.ofNat 17 (0x4000 + 4 * m)).toNat = 0x4000 + 4 * m := by
    rw [BitVec.toNat_ofNat]
    omega
  have index : (0x4000 + 4 * m) / 4 * 4 - 0x4000 = 4 * m := by omega
  rw [busRead_frame s (by omega) (by omega), haddr, index, lanes_extract _ _ hk]

/-- Settles O37: FD_HEAD by its fields, the length at bit 0 among them, and the FRAME window lane by lane. -/
theorem headFrameIsVisible : Obligations.HeadFrameIsVisible := by
  have head (s : State) : busRead s 0x00030 = s.fd.headWord := busRead_regAddr s .fdHead
  constructor
  · intro s hq
    constructor
    · rw [head, Fd.headWord, hq]
    · intro a h h'
      rw [busRead_frame s h h']
      simp [lanes, Fd.headByte, hq]
  · intro s f q hq hlen w
    have hw : w = (BitVec.ofNat 16 f.bytes.length).setWidth 32 <<< 0 ||| f.cause.code.setWidth 32 <<< 16 |||
        bitAt true 31 := by
      rw [show w = _ from head s, Fd.headWord, hq, BitVec.shiftLeft_zero]
    refine ⟨?length, ?cause, ?_, ?_, fun m k hm hk => ?window⟩
    case length =>
      have field : w.extractLsb' 0 16 = BitVec.ofNat 16 f.bytes.length := by
        simp [hw, -BitVec.shiftLeft_zero, BitVec.extractLsb'_or]
      rw [field, BitVec.toNat_ofNat]
      omega
    case cause =>
      have field : w.extractLsb' 16 2 = f.cause.code := by
        simp [hw, -BitVec.shiftLeft_zero, BitVec.extractLsb'_or]
      rw [field]
      cases f.cause <;> rfl
    case window =>
      rw [busRead_frame_lane s hm hk]
      simp [Fd.headByte, hq, byteAt]
    all_goals simp [hw, -BitVec.shiftLeft_zero, BitVec.extractLsb'_or]

/-! ### INT_STATUS and the interrupt output -/

theorem Fd.qne_eq_true_iff (f : Fd) : f.qne = true ↔ f.queue ≠ [] := by
  simp [Fd.qne, List.length_pos_iff]

/-- Settles O38: `irq` is R59's formula, and INT_STATUS's fields do not meet. -/
theorem interruptOutput : Obligations.InterruptOutput := by
  have word (s : State) : busRead s 0x00034 = s.intStatusWord := busRead_regAddr s .intStatus
  refine ⟨rfl, by rw [word]; rfl, ?_⟩
  intro s anyErr w
  have hw : w = s.intStatusWord := word s
  have herr : anyErr = s.anyErr := rfl
  rw [hw, herr]
  refine ⟨?irq, ?_, ?_, ?qne, ?_, ?_⟩
  case irq => simp [State.irq, Fd.qne_eq_true_iff, or_assoc]
  case qne => simp [State.intStatusWord, Fd.qne_eq_true_iff]
  all_goals simp [State.intStatusWord, BitVec.extractLsb'_or]

end Sys2Proof.Machine
end

section
/-! The two low address bits, and an edge whose cycle reads (20_memory.md R82, R86). -/

namespace Sys2Proof.Machine

/-! ### The two low address bits -/

@[simp] theorem addrTarget_wordAddr (a : BusAddr) : addrTarget (wordAddr a) = addrTarget a := by
  simp only [addrTarget, wordAddr_wordAddr]

/-- Settles O33: a read and a write see the address only through its target, which the two low bits do not reach. -/
theorem lowAddressBitsAreIgnored : Obligations.LowAddressBitsAreIgnored := by
  intro s a w
  have target : addrTarget (a &&& 0x1FFFC) = addrTarget a := addrTarget_wordAddr a
  refine ⟨?_, ?_, busWrite_isNext a w s⟩
  · simp only [busRead, target]
  · simp only [busWrite, target]

/-! ### A read -/

theorem step_of_cycle {s : State} {e : EdgeInput} {rest : List HostStep} (hs : s.script = .cycle e :: rest) :
    step s = runEdge e s.beginEdge := by
  rw [step, edge, nextInput_of_cycle hs]

/-- An edge whose cycle reads is the edge of the same cycle without the access, whatever the value read was. -/
theorem runEdge_of_read {e : EdgeInput} {a : BusAddr} (hb : e.bus = .read a) (s : State) (r : Option Word) :
    ∃ t, runEdge e s = .next t ∧ t.busRdata = s.busRdata ∧
      runEdge { e with bus := .idle } { s with busRdata := r } = .next { t with busRdata := r } := by
  obtain ⟨rst, bus, rxValid, rxData, rxActive⟩ := e
  obtain rfl : bus = .read a := hb
  cases rst with
  | true => exact ⟨_, rfl, rfl, rfl⟩
  | false =>
    refine ⟨_, rfl, by simp, ?_⟩
    simp only [runEdge, busPhase, fdPhase_cePhase]
    rfl

/-- Settles O32: the two edges start from states that differ in the value read alone. -/
theorem readHasNoSideEffect : Obligations.ReadHasNoSideEffect := by
  intro s e rest a hs hb
  obtain ⟨t, hedge, hdata, hidle⟩ := runEdge_of_read hb s.beginEdge none
  refine ⟨t, by rw [step_of_cycle hs, hedge], ?_, ?_⟩
  · rw [hdata, State.beginEdge_busRdata, nextInput_of_cycle hs, hb]
    rfl
  · rw [step_of_cycle rfl, ← hidle, State.beginEdge, State.beginEdge, nextScript_of_cycle hs]
    rfl

end Sys2Proof.Machine
end

section
/-! What a write to each target does (20_memory.md R83, R85, R88, R89), and the bits outside a register's defined
ones. -/

namespace Sys2Proof.Machine

theorem busWrite_of_reg {a : BusAddr} {r : Reg} (h : addrTarget a = .reg r) (w : Word) (s : State) :
    busWrite a w s = writeReg w s r := by
  rw [busWrite, h]

/-- A write at a register's address writes that register (10_state.md R32). -/
@[simp] theorem busWrite_regAddr (r : Reg) (w : Word) (s : State) : busWrite (regAddr r) w s = writeReg w s r :=
  busWrite_of_reg (addrTarget_regAddr r) w s

/-- A legal word written to CMD is its command (30_encoding.md R110). -/
theorem busWrite_of_command {a : BusAddr} {w : Word} {i : Instr} (h : addrTarget a = .reg .cmd)
    (hd : decode w = .legal i) (s : State) : busWrite a w s = exec i s := by
  rw [busWrite_of_reg h, writeReg, issue, hd]

/-! ### Unmapped addresses and the FRAME window -/

/-- The target of an address between the registers and the windows. -/
theorem addrTarget_unmapped {a : BusAddr}
    (h : (0x38 ≤ a.toNat ∧ a.toNat < 0x4000) ∨ (0x8000 ≤ a.toNat ∧ a.toNat < 0x10000)) : addrTarget a = .unmapped := by
  have hw := wordAddr_toNat a
  simp only [addrTarget, regAt_eq_none (a := wordAddr a) (by omega), hw]
  rw [if_neg (by omega), if_neg (by omega)]

theorem access_of_unmapped {a : BusAddr} (h : addrTarget a = .unmapped) (s : State) (w : Word) :
    busRead s a = 0 ∧ busWrite a w s = .next s := by
  simp only [busRead, busWrite, h, and_self]

/-- The DBUF window from DBUF_BYTES on is as unmapped (20_memory.md R87). -/
theorem access_past_dbuf {a : BusAddr} {j : Nat} {s : State} (h : addrTarget a = .dbuf j) (hj : s.params.dbufBytes ≤ j)
    (w : Word) : busRead s a = 0 ∧ busWrite a w s = .next s := by
  simp only [busRead, busWrite, writeDbuf, h, if_neg (Nat.not_lt.2 hj), if_pos hj, and_self]

theorem busWrite_frame {a : BusAddr} (h : 0x4000 ≤ a.toNat) (h' : a.toNat < 0x8000) (w : Word) (s : State) :
    busWrite a w s = .next s := by
  rw [busWrite, addrTarget_frame h h']

/-! ### Reserved bits -/

/-- A field at bit `k` has no bit in a mask that is 0 over the field. -/
theorem field_and_eq_zero {n k : Nat} {m : Word} (v : BitVec n) (hm : m.extractLsb' k n = 0#n) :
    v.setWidth 32 <<< k &&& m = 0#32 := by
  apply BitVec.eq_of_getLsbD_eq
  intro i hi
  by_cases hk : i < k
  · simp [hk]
  · by_cases hn : i - k < n
    · have bit := congrArg (BitVec.getLsbD · (i - k)) hm
      have hi' : k + (i - k) = i := by omega
      have hbit : m.getLsbD i = false := by simpa [hn, hi'] using bit
      rw [BitVec.getLsbD_and, hbit, Bool.and_false, BitVec.getLsbD_zero]
    · simp [BitVec.getLsbD_of_ge v (i - k) (by omega)]

/-- A value of `n` bits has no bit in a mask of bits above them. -/
theorem setWidth_and_eq_zero {n : Nat} {m : Word} (v : BitVec n) (hm : m.extractLsb' 0 n = 0#n) :
    v.setWidth 32 &&& m = 0#32 := by
  simpa using field_and_eq_zero (k := 0) v hm

theorem bitAt_and_eq_zero {n : Nat} {m : Word} (b : Bool) (hm : m.extractLsb' n 1 = 0#1) : bitAt b n &&& m = 0#32 :=
  field_and_eq_zero (BitVec.ofBool b) hm

/-- The bits of a register that a read can show 1 (10_state.md R33 to R50). -/
def Reg.readMask : Reg → Word
  | .paramDbuf => 0xFFFFFFFF
  | .paramFd => 0xFFFFFFFF
  | .cmd => 0x00000000
  | .ceStatus => 0x00000777
  | .ceCrc => 0x0000FFFF
  | .ceOffset => 0x0000FFFF
  | .ceLength => 0x0000FFFF
  | .intEn => 0x00000007
  | .fdCtrl => 0x00000001
  | .fdSilence => 0xFFFFFFFF
  | .fdStatus => 0x00FF030F
  | .fdAsmlen => 0x0000FFFF
  | .fdHead => 0x8003FFFF
  | .intStatus => 0x80000007

/-- The bits of a register that a write reaches (10_state.md R33 to R50). -/
def Reg.writeMask : Reg → Word
  | .cmd => 0xFFFFFFFF
  | .ceStatus => 0x00000702
  | .ceCrc => 0x0000FFFF
  | .ceOffset => 0x0000FFFF
  | .ceLength => 0x0000FFFF
  | .intEn => 0x00000007
  | .fdCtrl => 0x00000001
  | .fdSilence => 0xFFFFFFFF
  | .fdStatus => 0x00000300
  | .paramDbuf | .paramFd | .fdAsmlen | .fdHead | .intStatus => 0x00000000

/-- FD_HEAD is 0, or three fields that leave [30:18] free (10_state.md R49). -/
theorem Fd.headWord_reserved (f : Fd) : f.headWord &&& ~~~Reg.readMask .fdHead = 0#32 := by
  unfold Fd.headWord
  split
  · rfl
  · simp [Reg.readMask, BitVec.and_or_distrib_right, field_and_eq_zero, setWidth_and_eq_zero, bitAt_and_eq_zero]

/-- Reserved bits read 0: no field of a register lies outside its mask. -/
theorem readReg_reserved (s : State) (r : Reg) : readReg s r &&& ~~~r.readMask = 0 := by
  cases r with
  | cmd => exact BitVec.zero_and
  | paramDbuf | paramFd | fdSilence => exact BitVec.and_zero
  | ceCrc | ceOffset | ceLength | intEn | fdAsmlen => exact setWidth_and_eq_zero _ (by decide)
  | fdCtrl => exact bitAt_and_eq_zero _ (by decide)
  | fdHead => exact s.fd.headWord_reserved
  | ceStatus | fdStatus | intStatus =>
    simp [readReg, Reg.readMask, Ce.statusWord, Fd.statusWord, State.intStatusWord, BitVec.and_or_distrib_right,
      field_and_eq_zero, bitAt_and_eq_zero]

/-- A 16-bit register takes no bit above [15:0] of a word. -/
theorem loHalf_and_mask (w : Word) : loHalf (w &&& 0x0000FFFF) = loHalf w := by
  rw [loHalf, BitVec.extractLsb'_and]
  exact BitVec.and_allOnes

/-- So does INT_EN with [2:0]. -/
theorem extractLsb'_intEn_and_mask (w : Word) : (w &&& 0x00000007).extractLsb' 0 3 = w.extractLsb' 0 3 := by
  rw [BitVec.extractLsb'_and]
  exact BitVec.and_allOnes

/-- Writes to reserved bits are ignored. -/
theorem writeReg_and_mask (w : Word) (s : State) (r : Reg) : writeReg (w &&& r.writeMask) s r = writeReg w s r := by
  cases r with
  | paramDbuf | paramFd | fdAsmlen | fdHead | intStatus => rfl
  | cmd | fdSilence => exact congrArg (writeReg · s _) BitVec.and_allOnes
  | ceCrc | ceOffset | ceLength => simp only [writeReg, Reg.writeMask, loHalf_and_mask]
  | intEn => simp only [writeReg, Reg.writeMask, extractLsb'_intEn_and_mask]
  | ceStatus | fdCtrl | fdStatus => simp [writeReg, Reg.writeMask, Ce.clearFlags, Fd.clearFlags]

/-- Settles O34: unmapped addresses by their target, the FRAME window and the read-only registers by the arms of a
write, reserved bits by the masks of every register. -/
theorem unmappedReadOnlyAndReserved : Obligations.UnmappedReadOnlyAndReserved := by
  refine ⟨fun s a w h => ?unmapped, fun s a w h h' => busWrite_frame h h' w s, fun s r w hr => ?readOnly,
    fun s => busRead_regAddr s .cmd, fun s r readMask writeMask hmasks => ?reserved⟩
  case unmapped =>
    have hw : (a &&& 0x1FFFC).toNat = a.toNat / 4 * 4 := wordAddr_toNat a
    rcases h with h | h | h
    · exact access_of_unmapped (addrTarget_unmapped (.inl h)) s w
    · exact access_of_unmapped (addrTarget_unmapped (.inr h)) s w
    · exact access_past_dbuf (addrTarget_dbuf (by omega)) (by omega) w
  case readOnly =>
    have readOnly : ∀ r ∈ [Reg.paramDbuf, .paramFd, .fdAsmlen, .fdHead, .intStatus], writeReg w s r = .next s := by
      simp [writeReg]
    rw [busWrite_regAddr]
    exact readOnly r hr
  case reserved =>
    obtain ⟨rfl, rfl⟩ : r.readMask = readMask ∧ r.writeMask = writeMask :=
      of_decide_eq_true
        ((List.all_eq_true (p := fun row => decide (row.1.readMask = row.2.1 ∧ row.1.writeMask = row.2.2))).1
          (by decide) _ hmasks)
    rw [busRead_regAddr]
    exact ⟨readReg_reserved s r, fun w => by rw [busWrite_regAddr, busWrite_regAddr, writeReg_and_mask]⟩

end Sys2Proof.Machine
end

section
/-! Writes to the read-write registers and to DBUF, and which writes BUSY refuses (20_memory.md R85 to R90,
70_reset_and_hazards.md R236). -/

namespace Sys2Proof.Machine

/-! ### Read-write registers -/

/-- The low `n` bits of a word as a mask. -/
theorem setWidth_extractLsb'_zero (w : Word) (n : Nat) :
    (w.extractLsb' 0 n).setWidth 32 = w &&& (BitVec.allOnes n).setWidth 32 := by
  apply BitVec.eq_of_getLsbD_eq
  intro i hi
  simp [hi, Bool.and_comm]

theorem bitAt_getLsbD_zero (w : Word) : bitAt (w.getLsbD 0) 0 = w &&& 0x00000001 := by
  have low : BitVec.ofBool (w.getLsbD 0) = w.extractLsb' 0 1 := by
    apply BitVec.eq_of_getLsbD_eq
    intro i hi
    obtain rfl : i = 0 := by omega
    simp
  rw [bitAt, low, BitVec.shiftLeft_zero, setWidth_extractLsb'_zero]
  rfl

/-- A cycle without reset that writes to the bus. -/
theorem step_of_write {s : State} {e : EdgeInput} {rest : List HostStep} {a : BusAddr} {w : Word} {m : State}
    (hs : s.script = .cycle e :: rest) (hrst : e.rst = false) (hb : e.bus = .write a w)
    (hm : busWrite a w s.beginEdge = .next m) : step s = .next (fdPhase e (cePhase s.ce.busy m)) := by
  simp [step_of_cycle hs, runEdge, hrst, hb, busPhase, hm]

/-- Settles O39: the steps after the write keep the field it replaced, in which a read shows the word's defined bits. -/
theorem writtenRegisterReadsBack : Obligations.WrittenRegisterReadsBack := by
  constructor
  · intro s e rest r mask w hs hrst hb hr
    simp only [List.mem_cons, List.not_mem_nil, or_false, Prod.mk.injEq] at hr
    have written {m : State} (hm : writeReg w s.beginEdge r = .next m)
        (hread : readReg (fdPhase e (cePhase s.ce.busy m)) r = w &&& mask) :
        ∃ t, step s = .next t ∧ busRead t (regAddr r) = w &&& mask :=
      ⟨_, step_of_write hs hrst hb (by rwa [busWrite_regAddr]), by rwa [busRead_regAddr]⟩
    rcases hr with (⟨rfl, rfl⟩ | ⟨rfl, rfl⟩ | ⟨rfl, rfl⟩) | ⟨⟨rfl, rfl⟩ | ⟨rfl, rfl⟩ | ⟨rfl, rfl⟩, hop⟩
    · exact written rfl (by simpa [readReg] using setWidth_extractLsb'_zero w 3)
    · exact written rfl (by simpa [readReg] using bitAt_getLsbD_zero w)
    · have all : w &&& 0xFFFFFFFF = w := BitVec.and_allOnes
      exact written rfl (by simpa [readReg] using all.symm)
    all_goals
      have hop' : s.beginEdge.ce.op = none := hop
      have free : s.ce.busy = false := s.ce.busy_eq_false_iff.2 hop
      refine written (by rw [writeReg, unlessBusy_of_free hop']) ?_
      simpa [readReg, free, loHalf] using setWidth_extractLsb'_zero w 16
  · intro s w
    simp only [busWrite_regAddr]
    refine ⟨rfl, rfl, rfl, fun hop => ?_⟩
    simp only [writeReg, unlessBusy_of_free hop]
    exact ⟨rfl, rfl, rfl⟩

/-! ### The DBUF window -/

/-- The target of a DBUF word's address in a legal build (20_memory.md R80, R87). -/
theorem Params.dbufWord_target {p : Params} (hp : p.legal = true) {j : Nat} (hmod : j % 4 = 0) (hj : j < p.dbufBytes) :
    addrTarget (BitVec.ofNat 17 (0x10000 + j)) = .dbuf j := by
  obtain ⟨_, ⟨_, hle⟩, _⟩ := p.legal_iff.1 hp
  have haddr : (BitVec.ofNat 17 (0x10000 + j)).toNat = 0x10000 + j := by
    rw [BitVec.toNat_ofNat]
    omega
  have index : (0x10000 + j) / 4 * 4 - 0x10000 = j := by omega
  rw [addrTarget_dbuf (by omega), haddr, index]

theorem busRead_of_dbuf {a : BusAddr} {j : Nat} {s : State} (ha : addrTarget a = .dbuf j)
    (hj : j < s.params.dbufBytes) : busRead s a = lanes s.ce.dbufByte j := by
  simp only [busRead, ha, if_pos hj]

theorem busWrite_of_dbuf {a : BusAddr} {j : Nat} {s : State} (ha : addrTarget a = .dbuf j)
    (hj : j < s.params.dbufBytes) (w : Word) :
    busWrite a w s = .next (unlessBusy s (s.withCe { s.ce with dbuf := storeLanes s.ce.dbuf j w })) := by
  simp only [busWrite, ha, writeDbuf, if_neg (Nat.not_le.2 hj)]

/-- A word is its four byte lanes (20_memory.md R90). -/
theorem word_ext_lanes {v w : Word} (h : ∀ k, k < 4 → v.extractLsb' (8 * k) 8 = w.extractLsb' (8 * k) 8) : v = w := by
  apply BitVec.eq_of_getLsbD_eq
  intro i hi
  have bit := congrArg (BitVec.getLsbD · (i % 8)) (h (i / 8) (by omega))
  simpa [Nat.mod_lt, Nat.div_add_mod] using bit

/-- Settles O40: the word stored is read back lane by lane, and no other byte changes. -/
theorem dbufWordWrite : Obligations.DbufWordWrite := by
  constructor
  · intro s j k hp hmod hj hk
    rw [busRead_of_dbuf (Params.dbufWord_target hp hmod hj) hj, lanes_extract _ _ hk]
  · intro s j w hp hop hmod hj
    have target := Params.dbufWord_target hp hmod hj
    have stored (k : Nat) (hk : k < 4) :
        { s.ce with dbuf := storeLanes s.ce.dbuf j w }.dbufByte (j + k) = w.extractLsb' (8 * k) 8 :=
      memByte_of_read? (storeLanes_read_inside s.ce.dbuf j w hk) s.ce.epoch
    refine ⟨s.withCe { s.ce with dbuf := storeLanes s.ce.dbuf j w }, ?write, rfl, stored, fun i hi => ?other, ?back⟩
    case write => rw [busWrite_of_dbuf target hj, unlessBusy_of_free hop]
    case other => simp only [State.withCe_ce, Ce.dbufByte, memByte, storeLanes_read_outside s.ce.dbuf j w hi]
    case back =>
      rw [busRead_of_dbuf target (by exact hj)]
      exact word_ext_lanes fun k hk => (lanes_extract _ j hk).trans (stored k hk)

/-! ### Writes while an operation is in flight -/

theorem unlessBusy_eq_raise {s : State} (hop : s.ce.op ≠ none) (a : State) : unlessBusy s a = s.raise .busy :=
  unlessBusy_of_busy hop a

/-- A CE command while BUSY is refused (30_encoding.md R118). -/
theorem exec_of_busy {i : Instr} {s : State} (hop : s.ce.op ≠ none) (hi : i.isCeCommand = true) :
    exec i s = .next (s.raise .busy) := by
  cases i with
  | nop | fdPop | fdFlush | fdQclear => cases hi
  | ceInit | ceUpdate b | ceCrc16 | ceValidate => exact congrArg Host.Outcome.next (unlessBusy_eq_raise hop _)

/-- A write to a register that BUSY guards is refused. -/
theorem writeReg_of_busy {r : Reg} {s : State} (hop : s.ce.op ≠ none) (hr : r ∈ [.ceCrc, .ceOffset, .ceLength])
    (w : Word) : writeReg w s r = .next (s.raise .busy) := by
  simp only [List.mem_cons, List.not_mem_nil, or_false] at hr
  rcases hr with rfl | rfl | rfl <;> exact congrArg Host.Outcome.next (unlessBusy_eq_raise hop _)

/-- Only a refused CE command raises ERR_BUSY. -/
theorem exec_raises_busy {i : Instr} {s t : State} (h : exec i s = .next t) (hs : s.ce.errBusy = false)
    (ht : t.ce.errBusy = true) : s.ce.op ≠ none ∧ i.isCeCommand = true := by
  rcases exec_cases h with ⟨_, rfl⟩ | ⟨hop, hi, rfl⟩ | ⟨_, rfl, _⟩ | ⟨_, _, rfl⟩ | ⟨_, x, _, rfl⟩ | ⟨_, _, rfl, _⟩ |
    ⟨_, _, rfl, _⟩ | ⟨_, rfl⟩ | ⟨_, rfl⟩ | ⟨_, rfl⟩
  case inr.inl => exact ⟨hop, hi⟩
  all_goals simp [hs] at ht

/-- Settles O41: a guarded write and a CE command are refused by one gate; the other writes never look at ce_op. -/
theorem writesRefusedWhileBusy : Obligations.WritesRefusedWhileBusy := by
  refine ⟨fun s a w hop => ⟨?refused, ?accepted⟩, ?only⟩
  case refused =>
    rw [← State.raise_busy]
    rintro (h | ⟨j, ha, hj⟩ | ⟨ha, i, hd, hi⟩)
    · obtain ⟨r, hr, ha⟩ := List.mem_map.1 (show addrTarget a ∈ [Reg.ceCrc, .ceOffset, .ceLength].map Target.reg from h)
      rw [busWrite_of_reg ha.symm, writeReg_of_busy hop hr]
    · rw [busWrite_of_dbuf ha hj, unlessBusy_eq_raise hop]
    · rw [busWrite_of_command ha hd, exec_of_busy hop hi]
  case accepted =>
    simp only [List.mem_cons, List.not_mem_nil, or_false]
    rintro (hreg | ⟨ha, hcmd⟩)
    · rcases hreg with ha | ha | ha | ha | ha <;>
        exact ⟨_, _, busWrite_of_reg ha w s, busWrite_of_reg ha w _, rfl, rfl⟩
    · rcases hcmd with hd | hd | hd | hd <;>
        exact ⟨_, _, busWrite_of_command ha hd s, busWrite_of_command ha hd _, rfl, rfl⟩
  case only =>
    intro s t a w h hs ht
    rcases busWrite_cases h with rfl | ⟨_, _, _, rfl⟩ | ⟨ha, i, hd, hi⟩ | ⟨_, rfl⟩ | ⟨hop, rfl, ha⟩ | ⟨_, _, rfl⟩ |
      ⟨_, _, rfl⟩ | ⟨_, _, rfl⟩ | ⟨_, rfl⟩ | ⟨_, rfl⟩ | ⟨_, rfl⟩ | ⟨_, rfl⟩ | ⟨_, j, _, _, rfl⟩
    case inr.inr.inl =>
      obtain ⟨hop, hce⟩ := exec_raises_busy hi hs ht
      exact ⟨hop, .inr (.inr ⟨ha, i, hd, hce⟩)⟩
    case inr.inr.inr.inr.inl => exact ⟨hop, ha.imp_right .inl⟩
    all_goals simp [hs] at ht

end Sys2Proof.Machine
end

section
/-! The CE and the FD do not read each other's state (20_memory.md R102, 41_frame_detector.md R161): each operation of
an edge gives an agent equal states when what that agent reads is equal. -/

namespace Sys2Proof.Machine

section
variable {s s' t t' : State}

/-! ### The FD -/

/-- The bus accesses that reach the FD in step 2. -/
theorem BusAccess.leavesFd_eq_false {b : BusAccess} (h : b.leavesFd = false) :
    ∃ a w, b = .write a w ∧
      ((addrTarget a = .reg .fdCtrl ∨ addrTarget a = .reg .fdSilence ∨ addrTarget a = .reg .fdStatus) ∨
        (addrTarget a = .reg .cmd ∧
          (decode w = .legal .fdPop ∨ decode w = .legal .fdFlush ∨ decode w = .legal .fdQclear))) := by
  cases b with
  | idle | read => cases h
  | write a w =>
    refine ⟨a, w, rfl, ?_⟩
    by_contra hno
    simp_all [BusAccess.leavesFd]

/-- What reaches the FD in step 2 is applied to the FD alone. -/
theorem busPhase_fd_congr {b : BusAccess} (hfd : s.fd = s'.fd) (h : busPhase b s = .next t)
    (h' : busPhase b s' = .next t') : t.fd = t'.fd := by
  cases hb : b.leavesFd with
  | true => rw [busPhase_keeps_fd h hb, busPhase_keeps_fd h' hb, hfd]
  | false =>
    obtain ⟨a, w, rfl, (ha | ha | ha) | ⟨ha, hd | hd | hd⟩⟩ := BusAccess.leavesFd_eq_false hb
    case inl.inl | inl.inr.inl | inl.inr.inr =>
      obtain rfl := Host.Outcome.next.inj ((busWrite_of_reg ha w s).symm.trans h)
      obtain rfl := Host.Outcome.next.inj ((busWrite_of_reg ha w s').symm.trans h')
      simp [hfd]
    case inr.inl | inr.inr.inl | inr.inr.inr =>
      obtain rfl := Host.Outcome.next.inj ((busWrite_of_command ha hd s).symm.trans h)
      obtain rfl := Host.Outcome.next.inj ((busWrite_of_command ha hd s').symm.trans h')
      simp [hfd]

/-! ### The CE -/

/-- Two operations go on to states with the same CE. -/
def SameCe (o o' : Result) : Prop := ∃ t t', o = .next t ∧ o' = .next t' ∧ t.ce = t'.ce

theorem SameCe.next (h : t.ce = t'.ce) : SameCe (.next t) (.next t') := ⟨t, t', rfl, rfl, h⟩

theorem unlessBusy_ce_congr {a a' : State} (hce : s.ce = s'.ce) (ha : a.ce = a'.ce) :
    (unlessBusy s a).ce = (unlessBusy s' a').ce := by
  unfold unlessBusy
  rw [hce]
  split
  · simp [hce]
  · exact ha

/-- An operation in range starts with the same operands, snapshot and latency. -/
theorem startOp_ce_congr (k : CeKind) (hedges : s.edges = s'.edges) (hce : s.ce = s'.ce) :
    (startOp k s).ce = (startOp k s').ce := by
  simp only [startOp, State.withCe_ce, hedges, hce]

theorem exec_sameCe (i : Instr) (hparams : s.params = s'.params) (hedges : s.edges = s'.edges) (hce : s.ce = s'.ce) :
    SameCe (exec i s) (exec i s') := by
  have started (k : CeKind) (outOfRange : Prop) [Decidable outOfRange] :
      (if outOfRange then s.raise .range else startOp k s).ce =
        (if outOfRange then s'.raise .range else startOp k s').ce := by
    split
    · simp [hce]
    · exact startOp_ce_congr k hedges hce
  cases i with
  | nop | fdPop | fdFlush | fdQclear => exact .next hce
  | ceInit | ceUpdate => exact .next (unlessBusy_ce_congr hce (by simp [hce]))
  | ceCrc16 | ceValidate => exact .next (unlessBusy_ce_congr hce (by rw [hparams, hce]; exact started _ _))

theorem writeReg_sameCe (r : Reg) (w : Word) (hparams : s.params = s'.params) (hedges : s.edges = s'.edges)
    (hce : s.ce = s'.ce) : SameCe (writeReg w s r) (writeReg w s' r) := by
  cases r with
  | cmd =>
    simp only [writeReg, issue]
    split
    · exact .next (by simp [hce])
    · exact exec_sameCe _ hparams hedges hce
  | ceStatus => exact .next (by simp [hce])
  | ceCrc | ceOffset | ceLength => exact .next (unlessBusy_ce_congr hce (by simp [hce]))
  | _ => exact .next hce

theorem writeDbuf_ce_congr (j : Nat) (w : Word) (hparams : s.params = s'.params) (hce : s.ce = s'.ce) :
    (writeDbuf j w s).ce = (writeDbuf j w s').ce := by
  unfold writeDbuf
  rw [hparams]
  split
  · exact hce
  · exact unlessBusy_ce_congr hce (by simp [hce])

/-- Step 2 reads of the state the parameters, the edge count and the CE, as far as the CE is concerned. -/
theorem busPhase_sameCe (b : BusAccess) (hparams : s.params = s'.params) (hedges : s.edges = s'.edges)
    (hce : s.ce = s'.ce) : SameCe (busPhase b s) (busPhase b s') := by
  cases b with
  | idle | read => exact .next hce
  | write a w =>
    simp only [busPhase, busWrite]
    split
    · exact writeReg_sameCe _ w hparams hedges hce
    · exact .next hce
    · exact .next (writeDbuf_ce_congr _ w hparams hce)
    · exact .next hce

/-! ### A whole edge -/

theorem runEdge_of_reset {e : EdgeInput} (hrst : e.rst = true) (s : State) : runEdge e s = .next s.resetBlock := by
  simp [runEdge, hrst]

theorem runEdge_of_busPhase {e : EdgeInput} {m : State} (hrst : e.rst = false) (hm : busPhase e.bus s = .next m) :
    runEdge e s = .next (fdPhase e (cePhase s.ce.busy m)) := by
  simp [runEdge, hrst, hm]

/-- The FD after an edge: its reset values and its step read the parameters and the cycle's inputs beside the FD. -/
theorem runEdge_fd_congr {e : EdgeInput} (hparams : s.params = s'.params) (hfd : s.fd = s'.fd)
    (h : runEdge e s = .next t) (h' : runEdge e s' = .next t') : t.fd = t'.fd := by
  cases hrst : e.rst with
  | true =>
    obtain rfl := Host.Outcome.next.inj ((runEdge_of_reset hrst s).symm.trans h)
    obtain rfl := Host.Outcome.next.inj ((runEdge_of_reset hrst s').symm.trans h')
    simp [hparams]
  | false =>
    obtain ⟨m, hm⟩ := busPhase_isNext e.bus s
    obtain ⟨m', hm'⟩ := busPhase_isNext e.bus s'
    obtain rfl := Host.Outcome.next.inj ((runEdge_of_busPhase hrst hm).symm.trans h)
    obtain rfl := Host.Outcome.next.inj ((runEdge_of_busPhase hrst hm').symm.trans h')
    have hparams : m.params = m'.params := (busPhase_keeps hm).1.trans (hparams.trans (busPhase_keeps hm').1.symm)
    simp [hparams, busPhase_fd_congr hfd hm hm']

/-- The CE after an edge: its reset values and its progress read the edge count beside the CE. -/
theorem runEdge_ce_congr {e e' : EdgeInput} (hrst : e.rst = e'.rst) (hbus : e.bus = e'.bus)
    (hparams : s.params = s'.params) (hedges : s.edges = s'.edges) (hce : s.ce = s'.ce)
    (h : runEdge e s = .next t) (h' : runEdge e' s' = .next t') : t.ce = t'.ce := by
  cases hrst' : e'.rst with
  | true =>
    obtain rfl := Host.Outcome.next.inj ((runEdge_of_reset (hrst.trans hrst') s).symm.trans h)
    obtain rfl := Host.Outcome.next.inj ((runEdge_of_reset hrst' s').symm.trans h')
    simp [hedges]
  | false =>
    obtain ⟨m, m', hm, hm', hmce⟩ := busPhase_sameCe e'.bus hparams hedges hce
    obtain rfl := Host.Outcome.next.inj ((runEdge_of_busPhase (hrst.trans hrst') (hbus ▸ hm)).symm.trans h)
    obtain rfl := Host.Outcome.next.inj ((runEdge_of_busPhase hrst' hm').symm.trans h')
    obtain ⟨_, _, _, hmedges, _⟩ := busPhase_keeps hm
    obtain ⟨_, _, _, hmedges', _⟩ := busPhase_keeps hm'
    simp [hmce, hce, hmedges, hmedges', hedges]

end

/-- Settles O55: before step 2 the two states agree on the parameters and the FD. -/
theorem detectorIsIndependentOfEngine : Obligations.DetectorIsIndependentOfEngine := by
  intro s s' t t' e rest rest' hs hs' hparams hfd h h'
  rw [step_of_cycle hs] at h
  rw [step_of_cycle hs'] at h'
  exact runEdge_fd_congr (s := s.beginEdge) (s' := s'.beginEdge) hparams hfd h h'

/-- Settles O56: before step 2 the two states agree on the parameters, the edge count and the CE. -/
theorem engineIsIndependentOfDetector : Obligations.EngineIsIndependentOfDetector := by
  intro s s' t t' e e' rest rest' hs hs' hrst hbus hparams hedges hce h h'
  rw [step_of_cycle hs] at h
  rw [step_of_cycle hs'] at h'
  exact runEdge_ce_congr (s := s.beginEdge) (s' := s'.beginEdge) hrst hbus hparams (congrArg (· + 1) hedges) hce h h'

end Sys2Proof.Machine
end

section
/-! The command words (30_encoding.md R111 to R114): the decoder inverts the encoder, a word is illegal exactly when its
fields are ill formed, and the rows of the opcode table are the commands' words. -/

namespace Sys2Proof

/-! ### The decoder and the encoder -/

@[simp] theorem decodeFields_fields (i : Instr) : decodeFields i.fields = .legal i := by
  cases i <;> rfl

theorem decodeFields_eq_legal_iff {f : CmdFields} {i : Instr} : decodeFields f = .legal i ↔ i.fields = f :=
  ⟨fields_of_decodeFields, fun h => h ▸ decodeFields_fields i⟩

@[simp] theorem decode_encode (i : Instr) : decode (encode i) = .legal i := by
  rw [decode, encode_fields, decodeFields_fields]

theorem encode_of_decode {w : Word} {i : Instr} (h : decode w = .legal i) : encode i = w := by
  rw [encode, fields_of_decodeFields h, CmdFields.toWord_ofWord]

theorem decode_eq_legal_iff {w : Word} {i : Instr} : decode w = .legal i ↔ encode i = w :=
  ⟨encode_of_decode, fun h => h ▸ decode_encode i⟩

/-- Settles O1: decoding gives the fields' command, and a legal word's fields are its command's. -/
theorem decodeInvertsEncode : Obligations.DecodeInvertsEncode :=
  ⟨decode_encode, fun _ _ => encode_of_decode⟩

/-! ### Illegal words -/

theorem CmdFields.wellFormed_iff {f : CmdFields} :
    f.wellFormed = true ↔ f.opc ∈ definedOpcodes ∧ f.rsvd = 0 ∧ (f.data = 0 ∨ f.opc = 0x02) := by
  simp [wellFormed, opcodeDefined, reservedZero, dataZeroUnlessUpdate, and_assoc]

/-- The well-formed fields are the commands' fields. -/
theorem CmdFields.wellFormed_iff_exists_fields {f : CmdFields} : f.wellFormed = true ↔ ∃ i : Instr, i.fields = f := by
  constructor
  · intro h
    obtain ⟨rsvd, data, opc⟩ := f
    obtain ⟨hopc, hrsvd, hdata⟩ := wellFormed_iff.1 h
    obtain rfl : rsvd = 0 := hrsvd
    simp only [definedOpcodes, List.mem_cons, List.not_mem_nil, or_false] at hopc
    by_cases hupdate : opc = 0x02
    · exact ⟨.ceUpdate data, by rw [hupdate]; rfl⟩
    · obtain rfl : data = 0 := hdata.resolve_right hupdate
      rcases hopc with rfl | rfl | rfl | rfl | rfl | rfl | rfl | rfl
      · exact ⟨.nop, rfl⟩
      · exact ⟨.ceInit, rfl⟩
      · exact absurd rfl hupdate
      · exact ⟨.ceCrc16, rfl⟩
      · exact ⟨.ceValidate, rfl⟩
      · exact ⟨.fdPop, rfl⟩
      · exact ⟨.fdFlush, rfl⟩
      · exact ⟨.fdQclear, rfl⟩
  · rintro ⟨i, rfl⟩
    cases i <;> simp [wellFormed_iff, Instr.fields, definedOpcodes]

theorem exists_decode_legal_iff {w : Word} : (∃ i, decode w = .legal i) ↔ (CmdFields.ofWord w).wellFormed = true := by
  simp only [decode, decodeFields_eq_legal_iff, CmdFields.wellFormed_iff_exists_fields]

theorem exists_decode_illegal_iff {w : Word} :
    (∃ e, decode w = .illegal e) ↔ ¬ (CmdFields.ofWord w).wellFormed = true := by
  rw [← exists_decode_legal_iff]
  cases decode w <;> simp

/-- Settles O2: the three conditions are those of ill-formed fields, and the decoder is a function. -/
theorem illegalExactlyByThreeConditions : Obligations.IllegalExactlyByThreeConditions := by
  intro w opc data rsvd bad
  have hbad : bad ↔ ¬ (CmdFields.ofWord w).wellFormed = true := by
    rw [CmdFields.wellFormed_iff, not_and_or, not_and_or, not_or]
    rfl
  rw [hbad, exists_decode_illegal_iff, not_not]
  refine ⟨Iff.rfl, fun hwf => ?_⟩
  obtain ⟨i, hi⟩ := exists_decode_legal_iff.2 hwf
  exact ⟨i, hi, fun j hj => Decoded.legal.inj (hj.symm.trans hi)⟩

/-- Settles O4: each legal word is its command's encoding, and the others' fields are ill formed. -/
theorem sampleWordsDecode : Obligations.SampleWordsDecode := by
  refine ⟨decode_encode .nop, decode_encode .ceInit, decode_encode (.ceUpdate 0x5A), decode_encode .ceCrc16,
    decode_encode .ceValidate, decode_encode .fdPop, decode_encode .fdFlush, decode_encode .fdQclear, ?illegal⟩
  simp only [List.forall_mem_cons]
  exact ⟨⟨_, rfl⟩, ⟨_, rfl⟩, ⟨_, rfl⟩, ⟨_, rfl⟩, ⟨_, rfl⟩, ⟨_, rfl⟩, ⟨_, rfl⟩, ⟨_, rfl⟩, ⟨_, rfl⟩, ⟨_, rfl⟩,
    List.forall_mem_nil _⟩

/-! ### The opcode table -/

theorem CmdFields.toWord_injective : Function.Injective CmdFields.toWord :=
  Function.LeftInverse.injective CmdFields.ofWord_toWord

/-- CE_UPDATE's mask clears DATA and nothing else (30_encoding.md R111). -/
theorem CmdFields.toWord_and_updateMask (f : CmdFields) :
    f.toWord &&& 0xFFFF00FF = CmdFields.toWord ⟨f.rsvd, 0, f.opc⟩ := by
  have mask : (0xFFFF00FF : Word) = BitVec.allOnes 16 ++ 0#8 ++ BitVec.allOnes 8 := by decide
  rw [mask, toWord, BitVec.and_append, BitVec.and_append, BitVec.and_allOnes, BitVec.and_zero, BitVec.and_allOnes]
  rfl

/-- CE_UPDATE's row holds its words, whatever the operand (30_encoding.md R113). -/
theorem and_updateMask_eq_iff {w : Word} :
    w &&& 0xFFFF00FF = 0x00000002 ↔ ∃ b, decode w = .legal (.ceUpdate b) := by
  have pattern : (0x00000002 : Word) = CmdFields.toWord ⟨0, 0, 0x02⟩ := by decide
  obtain ⟨⟨rsvd, data, opc⟩, rfl⟩ : ∃ f : CmdFields, f.toWord = w := ⟨.ofWord w, CmdFields.toWord_ofWord w⟩
  rw [CmdFields.toWord_and_updateMask, pattern, CmdFields.toWord_injective.eq_iff]
  simp only [decode_eq_legal_iff, encode, CmdFields.toWord_injective.eq_iff, Instr.fields, CmdFields.mk.injEq]
  constructor
  · rintro ⟨rfl, _, rfl⟩
    exact ⟨data, rfl, rfl, rfl⟩
  · rintro ⟨b, rfl, _, rfl⟩
    exact ⟨rfl, trivial, rfl⟩

theorem Instr.eq_of_mnemonic_eq {i j : Instr} (hi : i.fields.opc ≠ 0x02) (h : j.mnemonic = i.mnemonic) : j = i := by
  cases i <;> cases j <;> simp_all [Instr.mnemonic, Instr.fields]

/-- The row of a command without an operand holds its one word. -/
theorem and_allOnes_eq_iff {w : Word} {i : Instr} (hi : i.fields.opc ≠ 0x02) :
    w &&& 0xFFFFFFFF = encode i ↔ ∃ j, decode w = .legal j ∧ j.mnemonic = i.mnemonic := by
  have mask : (0xFFFFFFFF : Word) = BitVec.allOnes 32 := by decide
  rw [mask, BitVec.and_allOnes]
  constructor
  · rintro rfl
    exact ⟨i, decode_encode i, rfl⟩
  · rintro ⟨j, hj, hname⟩
    rw [← encode_of_decode hj, Instr.eq_of_mnemonic_eq hi hname]

/-- A row of the table holds exactly the words of its command. -/
theorem matches_row_iff {r : OpcodeRow} (hr : r ∈ opcodeTable) {w : Word} :
    w &&& r.mask = r.pattern ↔ ∃ i, decode w = .legal i ∧ i.mnemonic = r.mnemonic := by
  simp only [opcodeTable, List.mem_cons, List.not_mem_nil, or_false] at hr
  rcases hr with rfl | rfl | rfl | rfl | rfl | rfl | rfl | rfl
  · exact and_allOnes_eq_iff (i := .nop) (by decide)
  · exact and_allOnes_eq_iff (i := .ceInit) (by decide)
  · rw [and_updateMask_eq_iff]
    constructor
    · rintro ⟨b, hb⟩
      exact ⟨_, hb, rfl⟩
    · rintro ⟨i, hi, hname⟩
      cases i <;> simp_all [Instr.mnemonic]
  · exact and_allOnes_eq_iff (i := .ceCrc16) (by decide)
  · exact and_allOnes_eq_iff (i := .ceValidate) (by decide)
  · exact and_allOnes_eq_iff (i := .fdPop) (by decide)
  · exact and_allOnes_eq_iff (i := .fdFlush) (by decide)
  · exact and_allOnes_eq_iff (i := .fdQclear) (by decide)

theorem opcodeTable_has_row (i : Instr) : ∃ r ∈ opcodeTable, r.mnemonic = i.mnemonic := by
  cases i <;> simp [opcodeTable, Instr.mnemonic]

theorem row_eq_of_mnemonic_eq : ∀ q ∈ opcodeTable, ∀ r ∈ opcodeTable, q.mnemonic = r.mnemonic → q = r := by
  decide

/-- Settles O3: a row holds exactly its command's words, and no two rows have one mnemonic. -/
theorem legalWordsAreTableRows : Obligations.LegalWordsAreTableRows := by
  refine ⟨fun w i hi => ?_, fun w r hr => (matches_row_iff hr).1⟩
  obtain ⟨r, hr, hname⟩ := opcodeTable_has_row i
  refine ⟨r, hr, hname, (matches_row_iff hr).2 ⟨i, hi, hname.symm⟩, fun q hq hmatch => ?_⟩
  obtain ⟨j, hj, hqname⟩ := (matches_row_iff hq).1 hmatch
  obtain rfl : i = j := Decoded.legal.inj (hi.symm.trans hj)
  exact row_eq_of_mnemonic_eq q hq r hr (hqname.symm.trans hname.symm)

end Sys2Proof
end

section
/-! What every command leaves unchanged, and the order of the checks on a word written to CMD (30_encoding.md R115 to
R120). -/

namespace Sys2Proof.Machine

/-- Settles O6: NOP's word is its encoding, and its meaning is the identity. -/
theorem nopChangesNothing : Obligations.NopChangesNothing :=
  ⟨decode_encode .nop, fun _ => rfl⟩

/-! ### The frame of a command -/

/-- What a command can leave of the CE of `s` (30_encoding.md R118, R119). -/
inductive CeAfterCommand (i : Instr) (s : State) : Ce → Prop where
  | same : CeAfterCommand i s s.ce
  | refused (hop : s.ce.op ≠ none) : CeAfterCommand i s (s.ce.raise .busy)
  | outOfRange (hop : s.ce.op = none) (hi : i = .ceCrc16 ∨ i = .ceValidate) : CeAfterCommand i s (s.ce.raise .range)
  | started (hop : s.ce.op = none) (hi : i = .ceCrc16 ∨ i = .ceValidate) (k : CeKind) :
      CeAfterCommand i s (startOp k s).ce
  | crc (hop : s.ce.op = none) (hi : i = .ceInit ∨ ∃ b, i = .ceUpdate b) (c : Half) :
      CeAfterCommand i s { s.ce with crc := c }

theorem exec_ceAfterCommand {i : Instr} {s t : State} (h : exec i s = .next t) : CeAfterCommand i s t.ce := by
  rcases exec_cases h with ⟨_, rfl⟩ | ⟨hop, _, rfl⟩ | ⟨hop, rfl, hi⟩ | ⟨hop, hi, rfl⟩ | ⟨hop, b, hi, rfl⟩ |
    ⟨hop, hi, rfl, _⟩ | ⟨hop, hi, rfl, _⟩ | ⟨_, rfl⟩ | ⟨_, rfl⟩ | ⟨_, rfl⟩
  · exact .same
  · exact .refused hop
  · exact .outOfRange hop (hi.imp And.left And.left)
  · exact .crc hop (.inl hi) _
  · exact .crc hop (.inr ⟨b, hi⟩) _
  · exact .started hop (.inl hi) _
  · exact .started hop (.inr hi) _
  all_goals exact .same

/-- What no command changes in the CE. -/
theorem CeAfterCommand.keeps {i : Instr} {s : State} {c : Ce} (h : CeAfterCommand i s c) :
    c.offset = s.ce.offset ∧ c.length = s.ce.length ∧ c.done = s.ce.done ∧ c.vreason = s.ce.vreason ∧
    c.errIllegal = s.ce.errIllegal ∧ c.epoch = s.ce.epoch ∧ c.dbuf = s.ce.dbuf := by
  cases h <;> simp

theorem CeAfterCommand.crc_eq {i : Instr} {s : State} {c : Ce} (h : CeAfterCommand i s c) (hinit : i ≠ .ceInit)
    (hupdate : ∀ b, i ≠ .ceUpdate b) : c.crc = s.ce.crc := by
  cases h with
  | crc _ hi => exact (hi.elim hinit fun ⟨b, hb⟩ => hupdate b hb).elim
  | _ => simp

theorem CeAfterCommand.op_eq {i : Instr} {s : State} {c : Ce} (h : CeAfterCommand i s c) (hcrc16 : i ≠ .ceCrc16)
    (hvalidate : i ≠ .ceValidate) : c.op = s.ce.op ∧ c.errRange = s.ce.errRange := by
  cases h with
  | outOfRange _ hi | started _ hi => exact (hi.elim hcrc16 hvalidate).elim
  | _ => simp

theorem CeAfterCommand.errBusy_of_free {i : Instr} {s : State} {c : Ce} (h : CeAfterCommand i s c)
    (hfree : s.ce.op = none) : c.errBusy = s.ce.errBusy := by
  cases h with
  | refused hop => exact absurd hfree hop
  | _ => simp

/-- While BUSY a command can do no more to the CE than raise ERR_BUSY (30_encoding.md R118). -/
theorem CeAfterCommand.eq_of_busy {i : Instr} {s : State} {c : Ce} (h : CeAfterCommand i s c)
    (hbusy : s.ce.op ≠ none) : c = { s.ce with errBusy := c.errBusy } := by
  cases h with
  | same | refused => rfl
  | outOfRange hop | started hop | crc hop => exact absurd hop hbusy

theorem exec_keeps {i : Instr} {s t : State} (h : exec i s = .next t) :
    t.params = s.params ∧ t.intEn = s.intEn ∧ t.script = s.script ∧ t.busRdata = s.busRdata ∧ t.edges = s.edges := by
  rcases exec_cases h with ⟨_, rfl⟩ | ⟨_, _, rfl⟩ | ⟨_, rfl, _⟩ | ⟨_, _, rfl⟩ | ⟨_, _, _, rfl⟩ | ⟨_, _, rfl, _⟩ |
    ⟨_, _, rfl, _⟩ | ⟨_, rfl⟩ | ⟨_, rfl⟩ | ⟨_, rfl⟩ <;> simp

/-- Neither NOP nor an FD command reaches the CE (40_crc_engine.md R136). -/
theorem exec_ce_of_not_ceCommand {i : Instr} {s t : State} (h : exec i s = .next t)
    (hi : i ∈ [.nop, .fdPop, .fdFlush, .fdQclear]) : t.ce = s.ce := by
  simp only [List.mem_cons, List.not_mem_nil, or_false] at hi
  rcases hi with rfl | rfl | rfl | rfl <;> (cases h; rfl)

theorem unlessBusy_fd {s a : State} (h : a.fd = s.fd) : (unlessBusy s a).fd = s.fd := by
  unfold unlessBusy
  split
  · rfl
  · exact h

/-- Neither NOP nor a CE command reaches the FD (40_crc_engine.md R136). -/
theorem exec_fd_of_not_fdCommand {i : Instr} {s t : State} (h : exec i s = .next t)
    (hi : i ∉ [.fdPop, .fdFlush, .fdQclear]) : t.fd = s.fd := by
  cases i with
  | fdPop | fdFlush | fdQclear => simp at hi
  | nop => cases h; rfl
  | ceInit | ceUpdate => cases h; exact unlessBusy_fd rfl
  | ceCrc16 | ceValidate => cases h; exact unlessBusy_fd (by split <;> rfl)

/-- What an FD command changes in the FD: FD_POP and FD_QCLEAR the queue, FD_FLUSH the assembling buffer. -/
theorem exec_fd_frame {i : Instr} {s t : State} (h : exec i s = .next t) :
    t.fd.en = s.fd.en ∧ t.fd.silence = s.fd.silence ∧ t.fd.errOvf = s.fd.errOvf ∧ t.fd.errQovr = s.fd.errQovr ∧
    (i ≠ .fdPop → i ≠ .fdQclear → t.fd.queue = s.fd.queue) ∧
    (i ≠ .fdFlush → t.fd.asm = s.fd.asm ∧ t.fd.asmOvf = s.fd.asmOvf ∧ t.fd.silCnt = s.fd.silCnt) := by
  cases i with
  | fdPop | fdFlush | fdQclear => cases h; simp
  | _ => simp [exec_fd_of_not_fdCommand h (by simp)]

/-- Settles O14: the frames of the block's surroundings, of the CE and of the FD. -/
theorem commandFrame : Obligations.CommandFrame := by
  intro i s t h
  obtain ⟨hparams, hintEn, hscript, hrdata, hedges⟩ := exec_keeps h
  have hce := exec_ceAfterCommand h
  obtain ⟨hoffset, hlength, hdone, hvreason, hillegal, hepoch, hdbuf⟩ := hce.keeps
  have hbytes a : t.ce.dbufByte a = s.ce.dbufByte a := by simp only [Ce.dbufByte, hdbuf, hepoch]
  exact ⟨hparams, hintEn, hscript, hrdata, hedges, hoffset, hlength, hdone, hvreason, hillegal, hepoch, hbytes,
    hce.crc_eq, hce.op_eq, hce.errBusy_of_free, hce.eq_of_busy, exec_ce_of_not_ceCommand h, exec_fd_of_not_fdCommand h,
    exec_fd_frame h⟩

/-! ### The checks of a command word -/

theorem issue_of_legal {w : Word} {i : Instr} (hd : decode w = .legal i) (s : State) : issue w s = exec i s := by
  rw [issue, hd]

theorem issue_of_illegal {w : Word} {e : DecodeError} (hd : decode w = .illegal e) (s : State) :
    issue w s = .next (s.raise .illegal) := by
  rw [issue, hd]

/-- The operands at which a block operation is refused with ERR_RANGE (40_crc_engine.md R142, R147). -/
def OutOfRange (i : Instr) (s : State) : Prop :=
  (i = .ceCrc16 ∧ s.params.dbufBytes < s.ce.offset.toNat + s.ce.length.toNat) ∨
  (i = .ceValidate ∧ s.params.dbufBytes < s.ce.length.toNat)

theorem exec_of_outOfRange {i : Instr} {s : State} (hfree : s.ce.op = none) (hi : OutOfRange i s) :
    exec i s = .next (s.raise .range) := by
  rcases hi with ⟨rfl, hr⟩ | ⟨rfl, hr⟩
  · rw [exec, execCeCrc16, unlessBusy_of_free hfree, if_pos hr]
  · rw [exec, execCeValidate, unlessBusy_of_free hfree, if_pos hr]

/-- A command that is neither refused while BUSY nor out of range raises no error. -/
theorem exec_err_of_accepted {i : Instr} {s t : State} (h : exec i s = .next t)
    (hfree : ¬ (i.isCeCommand = true ∧ s.ce.op ≠ none)) (hrange : ¬ OutOfRange i s) (x : Err) : t.err x = s.err x := by
  rcases exec_cases h with ⟨_, rfl⟩ | ⟨hop, hi, _⟩ | ⟨_, _, hr⟩ | ⟨_, _, rfl⟩ | ⟨_, _, _, rfl⟩ | ⟨_, _, rfl, _⟩ |
    ⟨_, _, rfl, _⟩ | ⟨_, rfl⟩ | ⟨_, rfl⟩ | ⟨_, rfl⟩
  case inr.inl => exact absurd ⟨hi, hop⟩ hfree
  case inr.inr.inl => exact absurd hr hrange
  all_goals cases x <;> rfl

/-- Settles O15: each check raises its own error where the checks before it pass. -/
theorem commandChecksInOrder : Obligations.CommandChecksInOrder := by
  intro s w outOfRange
  refine ⟨fun e hd => issue_of_illegal hd s, fun i hd => ?_⟩
  rw [issue_of_legal hd]
  refine ⟨fun hi hop => exec_of_busy hop hi, fun hfree hr => ?_, fun hfree hr => ?_⟩
  · have hce : i.isCeCommand = true := by rcases hr with ⟨rfl, _⟩ | ⟨rfl, _⟩ <;> rfl
    exact exec_of_outOfRange (not_not.1 fun hop => hfree ⟨hce, hop⟩) hr
  · obtain ⟨t, ht⟩ := exec_isNext i s
    exact ⟨t, ht, ht, exec_err_of_accepted ht hfree hr⟩

end Sys2Proof.Machine
end

section
/-! The polling loop WAITDONE (30_encoding.md R123; 40_crc_engine.md R149). -/

namespace Sys2Proof.Machine

/-- An edge at which the host polls: the read leaves step 2 without effect, and the CE makes its progress. -/
theorem step_of_waitDone {s : State} {rest : List HostStep} (hs : s.script = .waitDone :: rest) :
    ∃ t, step s = .next t ∧ t.script = (if s.ce.busy then .waitDone :: rest else rest) ∧
      t.busRdata = some s.ce.statusWord ∧
      t.ce = if s.ce.busy then s.ce.progress (Config.ceStride (s.edges + 1)) else s.ce := by
  have input : s.nextInput = busCycle (.read (regAddr .ceStatus)) := by rw [State.nextInput, hs]; rfl
  refine ⟨_, step_of_busPhase (m := s.beginEdge) (by rw [input]; rfl) (by rw [input]; rfl), ?_, ?_, ?_⟩
  · simp [State.nextScript, hs]
  · simp only [fdPhase_busRdata, cePhase_busRdata, State.beginEdge_busRdata, input]
    exact congrArg some (busRead_regAddr s .ceStatus)
  · simp

/-- While the operation in flight waits, a poll finds BUSY = 1 and is made again. -/
theorem step_of_waitDone_of_wait {s : State} {op : InFlight} {rest : List HostStep} {n : Nat}
    (hs : s.script = .waitDone :: rest) (hop : s.ce.op = some op) (hw : op.wait = n + 1) :
    ∃ t op', step s = .next t ∧ t.script = .waitDone :: rest ∧ t.ce.op = some op' ∧ op'.wait = n := by
  have hbusy : s.ce.busy = true := s.ce.busy_eq_true_iff.2 (by simp [hop])
  obtain ⟨t, ht, hscript, _, hce⟩ := step_of_waitDone hs
  obtain ⟨op', _, _, hw', hprogress⟩ := Ce.progress_of_wait hop hw (Config.ceStride (s.edges + 1))
  rw [if_pos hbusy] at hscript hce
  exact ⟨t, op', ht, hscript, by rw [hce, hprogress], hw'⟩

/-- At the completing edge a poll still finds BUSY = 1, the value before the edge (20_memory.md R86). -/
theorem step_of_waitDone_of_done {s : State} {op : InFlight} {rest : List HostStep}
    (hs : s.script = .waitDone :: rest) (hop : s.ce.op = some op) (hw : op.wait = 0) :
    ∃ t, step s = .next t ∧ t.script = .waitDone :: rest ∧ t.ce.op = none ∧ t.ce.done = true := by
  have hbusy : s.ce.busy = true := s.ce.busy_eq_true_iff.2 (by simp [hop])
  obtain ⟨t, ht, hscript, _, hce⟩ := step_of_waitDone hs
  rw [if_pos hbusy] at hscript hce
  rw [Ce.progress_of_done hop hw] at hce
  exact ⟨t, ht, hscript, by simp [hce], by simp [hce]⟩

/-- With no operation in flight the poll reads CE_STATUS and the script goes on. -/
theorem step_of_waitDone_of_free {s : State} {rest : List HostStep} (hs : s.script = .waitDone :: rest)
    (hop : s.ce.op = none) : ∃ t, step s = .next t ∧ t.script = rest ∧ t.busRdata = some s.ce.statusWord := by
  obtain ⟨t, ht, hscript, hdata, _⟩ := step_of_waitDone hs
  rw [s.ce.busy_eq_false_iff.2 hop] at hscript
  exact ⟨t, ht, hscript, hdata⟩

theorem reaches_snoc {k : Nat} {s u t : State} (h : Reaches k s u) (h' : step u = .next t) : Reaches (k + 1) s t :=
  reaches_trans h (reaches_succ h' ((reaches_zero t t).2 rfl))

/-- After `k` polls the operation waits `k` edges less. -/
theorem waitDone_polls {s : State} {op : InFlight} {rest : List HostStep} (hs : s.script = .waitDone :: rest)
    (hop : s.ce.op = some op) : ∀ k, k ≤ op.wait →
      ∃ u op', Reaches k s u ∧ u.script = .waitDone :: rest ∧ u.ce.op = some op' ∧ op'.wait = op.wait - k
  | 0, _ => ⟨s, op, (reaches_zero s s).2 rfl, hs, hop, rfl⟩
  | k + 1, hk => by
    obtain ⟨u, op', hu, hscript, hop', hw⟩ := waitDone_polls hs hop k (by omega)
    obtain ⟨t, op'', ht, hscript, hop'', hw'⟩ :=
      step_of_waitDone_of_wait hscript hop' (n := op.wait - (k + 1)) (by omega)
    exact ⟨t, op'', reaches_snoc hu ht, hscript, hop'', hw'⟩

/-- Settles O28: the operation waits `op.wait` polls, completes at the next one, and the poll after that reads it. -/
theorem waitDoneLoopEnds : Obligations.WaitDoneLoopEnds := by
  intro s op rest hop hs
  obtain ⟨u, op', hu, hscript, hop', hw⟩ := waitDone_polls hs hop op.wait le_rfl
  obtain ⟨c, hc, hcscript, hfree, hdone⟩ := step_of_waitDone_of_done hscript hop' (by omega)
  obtain ⟨t, ht, htscript, hdata⟩ := step_of_waitDone_of_free hcscript hfree
  refine ⟨fun k hk => ?_, t, _, reaches_snoc (reaches_snoc hu hc) ht, htscript, hdata, ?_, ?_⟩
  · rcases Nat.le_succ_iff.1 hk with hk | rfl
    · obtain ⟨v, _, hv, hvscript, _⟩ := waitDone_polls hs hop k hk
      exact ⟨v, hv, hvscript⟩
    · exact ⟨c, reaches_snoc hu hc, hcscript⟩
  · simp [Ce.statusWord, c.ce.busy_eq_false_iff.2 hfree]
  · simp [Ce.statusWord, hdone]

end Sys2Proof.Machine
end

section
/-! The algebra of the CRC step (40_crc_engine.md R130 to R134): it is linear and injective, two steps are sixteen turns
of R130's loop, and a frame is checked by the residue of all its bytes. -/

namespace Sys2Proof.Machine

/-! ### The turns of R130's loop -/

theorem crcBit_of_even {c : Half} (h : c.getLsbD 0 = false) : crcBit c = c >>> 1 := by
  rw [crcBit, h, if_neg Bool.false_ne_true]

/-- A turn has no kernel: bit 15 of the polynomial keeps the bit that is shifted out. -/
theorem eq_zero_of_crcBit_eq_zero {c : Half} (h : crcBit c = 0) : c = 0 := by
  have low : c.getLsbD 0 = false := by
    by_contra hodd
    have top : (crcBit c).getLsbD 15 = true := by
      rw [crcBit, if_pos (Bool.eq_true_of_not_eq_false hodd)]
      simp
    simp [h] at top
  rw [crcBit_of_even low] at h
  apply BitVec.eq_of_getLsbD_eq
  intro i _
  cases i with
  | zero => simpa using low
  | succ i => simpa [Nat.add_comm] using congrArg (·.getLsbD i) h

theorem crcBit_injective : Function.Injective crcBit := by
  intro c d h
  have diff : crcBit (c ^^^ d) = 0 := by rw [crcBit_xor, h]; exact BitVec.xor_self
  exact BitVec.xor_eq_zero_iff.1 (eq_zero_of_crcBit_eq_zero diff)

theorem crcBits_injective (n : Nat) : Function.Injective (crcBits n) := by
  induction n with
  | zero => exact fun _ _ h => h
  | succ n ih => exact ih.comp crcBit_injective

@[simp] theorem crcBits_zero (n : Nat) : crcBits n 0 = 0 := by
  induction n with
  | zero => rfl
  | succ n ih => exact ih

theorem crcBits_add (m n : Nat) (c : Half) : crcBits (m + n) c = crcBits n (crcBits m c) := by
  induction m generalizing c with
  | zero => rw [Nat.zero_add]; rfl
  | succ m ih => rw [Nat.succ_add]; exact ih (crcBit c)

/-- As long as the bits shifted out are 0, the loop is a right shift. -/
theorem crcBits_eq_shift {n : Nat} {c : Half} (h : ∀ i, i < n → c.getLsbD i = false) : crcBits n c = c >>> n := by
  induction n generalizing c with
  | zero => simp [crcBits]
  | succ n ih =>
    rw [crcBits, crcBit_of_even (h 0 (by omega)), ih (fun i hi => ?_), ← BitVec.shiftRight_add, Nat.add_comm]
    rw [BitVec.getLsbD_ushiftRight]
    exact h (1 + i) (by omega)

/-! ### A step on the two bytes of the accumulator -/

theorem setWidth_eq_zero_append (b : Byte) : b.setWidth 16 = 0#8 ++ b :=
  BitVec.setWidth_eq_append (by decide)

theorem shiftRight_eq_zero_append (c : Half) : c >>> 8 = 0#8 ++ hiByte c :=
  BitVec.ushiftRight_eq_extractLsb'_of_lt (by decide)

/-- Eight turns move an accumulator whose low byte is 0 down by one byte. -/
theorem crcBits_append_zero (h : Byte) : crcBits 8 (h ++ 0#8) = 0#8 ++ h := by
  have shifted : crcBits 8 (h ++ 0#8) = (h ++ 0#8) >>> 8 :=
    crcBits_eq_shift fun i hi => by rw [BitVec.getLsbD_append]; simp [hi]
  rw [shifted, shiftRight_eq_zero_append, hiByte_append]

/-- A word's bytes are apart under XOR. -/
theorem append_eq_xor (h l : Byte) : h ++ l = (h ++ 0#8) ^^^ (0#8 ++ l) := by
  rw [BitVec.xor_append, BitVec.xor_zero, BitVec.zero_xor]

/-- The high byte moves down, and what the loop adds depends on the low byte and the data byte alone: the idea of the
table form (40_crc_engine.md R132). -/
theorem crcStep_append (h l b : Byte) : crcStep (h ++ l) b = (0#8 ++ h) ^^^ crcStep 0 (l ^^^ b) := by
  have parts : (h ++ l) ^^^ (0#8 ++ b) = (h ++ 0#8) ^^^ (0#8 ++ (l ^^^ b)) := by
    simp only [BitVec.xor_append, BitVec.xor_zero, BitVec.zero_xor]
  rw [crcStep, crcStep, setWidth_eq_zero_append, setWidth_eq_zero_append, parts, crcBits_xor, crcBits_append_zero]
  exact congrArg _ (congrArg _ BitVec.zero_xor.symm)

/-- Two steps are sixteen turns with both bytes XORed in at the start, the first in the low byte. -/
theorem crcStep_crcStep (c : Half) (b0 b1 : Byte) : crcStep (crcStep c b0) b1 = crcBits 16 (c ^^^ (b1 ++ b0)) := by
  have parts : c ^^^ (b1 ++ b0) = (c ^^^ (0#8 ++ b0)) ^^^ (b1 ++ 0#8) := by
    rw [append_eq_xor b1 b0, BitVec.xor_comm (b1 ++ 0#8), BitVec.xor_assoc]
  rw [parts, crcBits_add 8 8, crcBits_xor, crcBits_append_zero]
  simp only [crcStep, setWidth_eq_zero_append]

theorem crcStep_injective_left (b : Byte) : Function.Injective (crcStep · b) :=
  fun _ _ h => (BitVec.xor_left_inj _).1 (crcBits_injective 8 h)

theorem crcStep_injective_right (c : Half) : Function.Injective (crcStep c) := by
  intro a b h
  have bytes : a.setWidth 16 = b.setWidth 16 := (BitVec.xor_right_inj c).1 (crcBits_injective 8 h)
  rw [setWidth_eq_zero_append, setWidth_eq_zero_append] at bytes
  simpa using congrArg loByte bytes

@[simp] theorem crcStep_zero : crcStep 0 0 = 0 := crcBits_zero 8

/-! ### The table form -/

theorem crcTable_getD (i : Byte) : crcTable.getD i.toNat 0 = crcStep 0x0000 i := by
  revert i
  decide +kernel

theorem crcStep_eq_table (c : Half) (b : Byte) :
    crcStep c b = (c >>> 8) ^^^ crcTable.getD (loByte c ^^^ b).toNat 0 := by
  calc crcStep c b = crcStep (hiByte c ++ loByte c) b := by rw [hiByte_append_loByte]
    _ = (c >>> 8) ^^^ crcTable.getD (loByte c ^^^ b).toNat 0 := by
      rw [crcStep_append, shiftRight_eq_zero_append, crcTable_getD]

theorem crcStepTable_eq (c : Half) (b : Byte) :
    crcStepTable c b = (c >>> 8) ^^^ crcTable.getD (loByte c ^^^ b).toNat 0 := by
  rw [crcStepTable, shiftRight_eq_zero_append]
  conv_rhs => rw [← hiByte_append_loByte (crcTable.getD _ 0), BitVec.xor_append, BitVec.zero_xor]

/-- Settles O17: both spellings XOR the table's entry into the shifted accumulator, and so does the bit-serial step. -/
theorem tableFormEqualsBitSerialStep : Obligations.TableFormEqualsBitSerialStep :=
  ⟨fun c b => (crcStepTable_eq c b).trans (crcStep_eq_table c b).symm, crcTable_getD, crcStep_eq_table⟩

/-! ### The CRC of a sequence and its residue -/

theorem crcOf_append (l r : List Byte) : crcOf (l ++ r) = r.foldl crcStep (crcOf l) := by
  induction r using List.reverseRecOn with
  | nil => rw [List.append_nil, List.foldl_nil]
  | append_singleton r b ih => rw [← List.append_assoc, crcOf_snoc, ih, List.foldl_append]; rfl

theorem crcOf_eq_foldl (l : List Byte) : crcOf l = l.foldl crcStep 0xFFFF := crcOf_append [] l

theorem foldl_crcStep_injective (l : List Byte) : Function.Injective (l.foldl crcStep) := by
  induction l with
  | nil => exact fun _ _ h => h
  | cons b l ih => exact ih.comp (crcStep_injective_left b)

/-- Settles O18: the empty sequence by definition, the three vectors by evaluation. -/
theorem crc16KnownValues : Obligations.Crc16KnownValues :=
  ⟨fun _ _ => rfl, by decide +kernel, by decide +kernel, by decide +kernel⟩

theorem wireBytes_eq_iff {c : Half} {b0 b1 : Byte} : [b0, b1] = wireBytes c ↔ c = b1 ++ b0 := by
  constructor
  · intro h
    obtain ⟨rfl, rfl⟩ : b0 = loByte c ∧ b1 = hiByte c := by simpa [wireBytes] using h
    exact (hiByte_append_loByte c).symm
  · rintro rfl
    rw [wireBytes, loByte_append, hiByte_append]

/-- Settles O20: after the two bytes the CRC is sixteen turns of `crcOf m` XOR them, and the turns have no kernel. -/
theorem trailingCrcIffZeroResidue : Obligations.TrailingCrcIffZeroResidue := by
  intro m b0 b1
  have residue : crcOf (m ++ [b0, b1]) = crcBits 16 (crcOf m ^^^ (b1 ++ b0)) := by
    rw [crcOf_append]
    exact crcStep_crcStep (crcOf m) b0 b1
  rw [wireBytes_eq_iff, residue, ← crcBits_zero 16, (crcBits_injective 16).eq_iff]
  exact BitVec.xor_eq_zero_iff.symm

/-- Settles O19: the case of O20 in which the two bytes are the CRC's. -/
theorem residueOfAppendedCrcIsZero : Obligations.ResidueOfAppendedCrcIsZero :=
  fun m => (trailingCrcIffZeroResidue m _ _).1 rfl

/-! ### The frame check -/

/-- Settles O23: one case for each check of R133, in their order. -/
theorem frameCheckContract : Obligations.FrameCheckContract := by
  intro buf n legalUnit crcMatches
  have unit : ((buf 0).toNat < 1 ∨ 247 < (buf 0).toNat) ↔ ¬ legalUnit := by
    simp only [legalUnit]
    omega
  have trailing : (buf (n - 2) = loByte (crc16 buf (n - 2) 0) ∧ buf (n - 1) = hiByte (crc16 buf (n - 2) 0)) ↔
      crcMatches := by simp [crcMatches, wireBytes]
  simp only [checkFrame, unit, trailing]
  by_cases hshort : n < 6
  · simp [hshort]
  by_cases hunit : legalUnit
  · by_cases hcrc : crcMatches
    · simp [hshort, hunit, hcrc, Nat.not_lt.1 hshort]
    · simp [hshort, hunit, hcrc, Nat.not_lt.1 hshort]
  · simp [hshort, hunit, Nat.not_lt.1 hshort]

theorem append_two_of_length {l : List Byte} {n : Nat} (h : l.length = n + 2) :
    l.take n ++ [byteAt l n, byteAt l (n + 1)] = l := by
  have last : l.drop n = [byteAt l n, byteAt l (n + 1)] := by
    rw [List.drop_eq_getElem_cons (by omega), List.drop_eq_getElem_cons (by omega),
      List.drop_of_length_le (by omega)]
    simp [byteAt, h]
  rw [← last, List.take_append_drop]

/-- The frame check in terms of the residue of all the bytes (40_crc_engine.md R133, R134 item 2). -/
theorem isValidFrame_iff {l : List Byte} :
    isValidFrame l = true ↔
      6 ≤ l.length ∧ (1 ≤ (byteAt l 0).toNat ∧ (byteAt l 0).toNat ≤ 247) ∧ crcOf l = 0 := by
  obtain ⟨_, _, _, okIff⟩ := frameCheckContract (byteAt l) l.length
  rw [isValidFrame, beq_iff_eq, okIff]
  refine and_congr_right fun hlen => and_congr_right fun _ => ?_
  obtain ⟨n, hn⟩ : ∃ n, l.length = n + 2 := ⟨l.length - 2, by omega⟩
  rw [hn, Nat.add_sub_cancel, show n + 2 - 1 = n + 1 from rfl, crc16_take l (by omega), trailingCrcIffZeroResidue,
    append_two_of_length hn]

theorem byteAt_append_left {l : List Byte} {i : Nat} (h : i < l.length) (r : List Byte) :
    byteAt (l ++ r) i = byteAt l i := by
  simp [byteAt, List.getElem?_append_left h]

/-- Settles O21: zero bytes keep a zero residue. -/
theorem validFrameExtendsByZeros : Obligations.ValidFrameExtendsByZeros := by
  intro m hm
  obtain ⟨hlen, hunit, hcrc⟩ := isValidFrame_iff.1 hm
  refine isValidFrame_iff.2 ⟨by simp; omega, ?_, ?_⟩
  · rwa [byteAt_append_left (by omega)]
  · rw [crcOf_append, hcrc, List.foldl_cons, crcStep_zero, List.foldl_cons, crcStep_zero, List.foldl_nil]

/-- Settles O24: the appended CRC gives the residue 0 and leaves the unit id in place. -/
theorem builtFrameIsValid : Obligations.BuiltFrameIsValid := by
  intro m hlen hlow hhigh
  refine isValidFrame_iff.2 ⟨by simp [wireBytes]; omega, ?_, residueOfAppendedCrcIsZero m⟩
  rw [byteAt_append_left (by omega)]
  exact ⟨hlow, hhigh⟩

/-- No change of one byte keeps the CRC: the step is injective in the byte, and so are the steps after it. -/
theorem eq_of_crcOf_set_eq {l : List Byte} {i : Nat} (hi : i < l.length) {b : Byte}
    (h : crcOf (l.set i b) = crcOf l) : b = l[i] := by
  rw [List.set_eq_take_cons_drop b hi, crcOf_append] at h
  conv_rhs at h => rw [← List.take_append_drop i l, List.drop_eq_getElem_cons hi, crcOf_append]
  exact crcStep_injective_right _ (foldl_crcStep_injective _ h)

theorem one_shiftLeft_ne_zero {bit : Nat} (h : bit < 8) : 1#8 <<< bit ≠ 0 := by
  revert bit
  decide

/-- Settles O22: if both sequences were valid, both residues would be 0, and the byte would not have changed. -/
theorem singleBitFlipIsDetected : Obligations.SingleBitFlipIsDetected := by
  intro m i bit hm hi hbit
  by_contra hflip
  obtain ⟨_, _, hcrc⟩ := isValidFrame_iff.1 hm
  obtain ⟨_, _, hcrc'⟩ := isValidFrame_iff.1 (Bool.eq_true_of_not_eq_false hflip)
  have same : byteAt m i ^^^ 1#8 <<< bit = byteAt m i := by
    rw [eq_of_crcOf_set_eq hi (hcrc'.trans hcrc.symm)]
    simp [byteAt, hi]
  exact one_shiftLeft_ne_zero hbit (by simpa using same)

end Sys2Proof.Machine
end

section
/-! The commands of the CE, case by case: the effect while no operation is in flight, the refusals, and the illegal words
of their operation codes (40_crc_engine.md R137 to R147). -/

namespace Sys2Proof.Machine

/-! ### What a CE command does while no operation is in flight -/

theorem exec_ceInit_of_free {s : State} (h : s.ce.op = none) :
    exec .ceInit s = .next (s.withCe { s.ce with crc := 0xFFFF }) :=
  congrArg Host.Outcome.next (unlessBusy_of_free h _)

theorem exec_ceUpdate_of_free {s : State} (h : s.ce.op = none) (b : Byte) :
    exec (.ceUpdate b) s = .next (s.withCe { s.ce with crc := crcStep s.ce.crc b }) :=
  congrArg Host.Outcome.next (unlessBusy_of_free h _)

theorem exec_ceCrc16_of_inRange {s : State} (h : s.ce.op = none)
    (hr : s.ce.offset.toNat + s.ce.length.toNat ≤ s.params.dbufBytes) :
    exec .ceCrc16 s = .next (startOp (.crc16 s.ce.offset s.ce.length) s) := by
  rw [exec, execCeCrc16, unlessBusy_of_free h, if_neg (Nat.not_lt.2 hr)]

theorem exec_ceValidate_of_inRange {s : State} (h : s.ce.op = none) (hr : s.ce.length.toNat ≤ s.params.dbufBytes) :
    exec .ceValidate s = .next (startOp (.validate s.ce.length) s) := by
  rw [exec, execCeValidate, unlessBusy_of_free h, if_neg (Nat.not_lt.2 hr)]

/-! ### Illegal words of a command's operation code -/

theorem issue_of_exists_illegal {w : Word} (h : ∃ e, decode w = .illegal e) (s : State) :
    issue w s = .next (s.raise .illegal) :=
  h.elim fun _ hd => issue_of_illegal hd s

/-- A command without operand has one word; another with its operation code is illegal (30_encoding.md R114). -/
theorem issue_of_extra_bits {i : Instr} {o : Byte} (hi : i.fields = ⟨0, 0, o⟩) (ho : o ≠ 0x02) (s : State) {w : Word}
    (hopc : w.extractLsb' 0 8 = o) (hne : w ≠ encode i) : issue w s = .next (s.raise .illegal) :=
  issue_of_exists_illegal (decode_illegal_of_extra_bits hopc ho fun h => hne (by rw [encode, hi, h])) s

theorem decode_ceUpdate {w : Word} (hopc : w.extractLsb' 0 8 = 0x02#8) (hrsvd : w.extractLsb' 16 16 = 0#16) :
    decode w = .legal (.ceUpdate (w.extractLsb' 8 8)) := by
  have fields : CmdFields.ofWord w = (Instr.ceUpdate (w.extractLsb' 8 8)).fields := by
    rw [CmdFields.ofWord, hopc, hrsvd]
    rfl
  rw [decode, fields, decodeFields_fields]

theorem decode_illegal_of_reserved {w : Word} (hrsvd : w.extractLsb' 16 16 ≠ 0#16) : ∃ e, decode w = .illegal e := by
  refine exists_decode_illegal_iff.2 fun hwf => ?_
  obtain ⟨_, hzero, _⟩ := CmdFields.wellFormed_iff.1 hwf
  exact hrsvd hzero

/-! ### Completion -/

theorem Ce.complete_of_crc16 {op : InFlight} {off len : Half} (h : op.kind = .crc16 off len) (c : Ce) :
    c.complete op =
      { c with crc := crc16 (memByte op.snap c.epoch) len.toNat off.toNat, op := none, done := true } := by
  rw [Ce.complete, h]

theorem Ce.complete_of_validate {op : InFlight} {len : Half} (h : op.kind = .validate len) (c : Ce) :
    c.complete op = { c with vreason := checkFrame (memByte op.snap c.epoch) len.toNat, op := none, done := true } := by
  rw [Ce.complete, h]

/-! ### The four commands -/

/-- Settles O7: the effect, the refusal while BUSY, and the one legal word. -/
theorem ceInitSetsInitialValue : Obligations.CeInitSetsInitialValue :=
  ⟨decode_encode .ceInit, fun _ hop => exec_ceInit_of_free hop, fun _ hop => exec_of_busy hop rfl,
    fun s _ hopc hne => issue_of_extra_bits (i := .ceInit) rfl (by decide) s hopc hne⟩

/-- Settles O8: the effect, the refusal while BUSY, RSVD as the only illegal field, and the step's two values. -/
theorem ceUpdateStepsTheCrc : Obligations.CeUpdateStepsTheCrc :=
  ⟨fun _ => decode_ceUpdate, fun _ b hop => exec_ceUpdate_of_free hop b, fun _ _ hop => exec_of_busy hop rfl,
    fun s _ _ hrsvd => issue_of_exists_illegal (decode_illegal_of_reserved hrsvd) s, by decide, by decide⟩

/-- Settles O9: the operation started is `startOp`'s, and the CRC of no byte is the initial value. -/
theorem ceCrc16IsAccepted : Obligations.CeCrc16IsAccepted := by
  refine ⟨decode_encode .ceCrc16, fun s hop hr => ⟨_, rfl, rfl, exec_ceCrc16_of_inRange hop hr⟩,
    fun s hop hr => exec_of_outOfRange hop (.inl ⟨rfl, hr⟩), fun s hop => exec_of_busy hop rfl,
    fun s w hopc hne => issue_of_extra_bits (i := .ceCrc16) rfl (by decide) s hopc hne, fun c op off hk => ?_⟩
  rw [Ce.complete_of_crc16 hk]
  rfl

/-- Settles O10: the operation started is `startOp`'s, and below 6 bytes the frame check reads none. -/
theorem ceValidateIsAccepted : Obligations.CeValidateIsAccepted := by
  refine ⟨decode_encode .ceValidate, fun s hop hr => ⟨_, rfl, rfl, exec_ceValidate_of_inRange hop hr⟩,
    fun s hop hr => exec_of_outOfRange hop (.inr ⟨rfl, hr⟩), fun s hop => exec_of_busy hop rfl,
    fun s w hopc hne => issue_of_extra_bits (i := .ceValidate) rfl (by decide) s hopc hne,
    fun c op len hk hlen => ?_⟩
  rw [Ce.complete_of_validate hk]
  exact (frameCheckContract _ _).1.2 hlen

end Sys2Proof.Machine
end

section
/-! Runs of the CRC Engine: a command written to CMD, an operation in flight up to its completion, and a stream of
CE_UPDATE (40_crc_engine.md R140, R143, R148, R149). -/

namespace Sys2Proof.Machine

/-! ### A command while no operation is in flight -/

/-- The CE after the edge is what the command left: step 3 has nothing to do (10_state.md R62). -/
theorem step_of_command {s m : State} {i : Instr} {rest : List HostStep} (hs : s.script = cmdCycle (encode i) :: rest)
    (hfree : s.ce.op = none) (hm : exec i s.beginEdge = .next m) :
    ∃ t, step s = .next t ∧ t.ce = m.ce ∧ t.script = rest := by
  have written : busWrite (regAddr .cmd) (encode i) s.beginEdge = .next m := by
    rwa [busWrite_of_command (addrTarget_regAddr .cmd) (decode_encode i)]
  have ht := step_of_write hs rfl rfl written
  refine ⟨_, ht, ?_, (step_keeps ht).2.1.trans (nextScript_of_cycle hs)⟩
  rw [s.ce.busy_eq_false_iff.2 hfree]
  rfl

/-! ### The stream of updates -/

/-- A CE_UPDATE per byte runs the CRC over the bytes (40_crc_engine.md R140). -/
theorem reaches_updates (rest : List HostStep) : ∀ (bytes : List Byte) (s : State), s.ce.op = none →
    s.script = (bytes.map Instr.ceUpdate).map (fun i => cmdCycle (encode i)) ++ rest →
    ∃ t, Reaches bytes.length s t ∧ t.ce.crc = bytes.foldl crcStep s.ce.crc ∧ t.ce.op = none ∧ t.script = rest
  | [], s, hfree, hs => ⟨s, (reaches_zero s s).2 rfl, rfl, hfree, hs⟩
  | b :: bytes, s, hfree, hs => by
    obtain ⟨u, hu, hce, hscript⟩ := step_of_command hs hfree (exec_ceUpdate_of_free (s := s.beginEdge) hfree b)
    obtain ⟨t, ht, hcrc, hop, hrest⟩ := reaches_updates rest bytes u (by rw [hce]; exact hfree) hscript
    exact ⟨t, reaches_succ hu ht, by rw [hcrc, hce]; rfl, hop, hrest⟩

/-- Settles O25: CE_INIT gives the initial value, and the updates run the CRC from it. -/
theorem streamingEquivalence : Obligations.StreamingEquivalence := by
  intro s bytes rest hfree hs
  obtain ⟨u, hu, hce, hscript⟩ := step_of_command hs hfree (exec_ceInit_of_free (s := s.beginEdge) hfree)
  obtain ⟨t, ht, hcrc, hop, hrest⟩ := reaches_updates rest bytes u (by rw [hce]; exact hfree) hscript
  refine ⟨t, reaches_succ hu ht, ?_, hop, hrest⟩
  rw [hcrc, hce, crcOf_eq_foldl]
  rfl

/-! ### An operation in flight -/

theorem NoReset.nextInput {s : State} (h : NoReset s.script) : s.nextInput.rst = false := by
  unfold State.nextInput
  split
  · rfl
  · rename_i entry rest hs
    cases entry with
    | cycle e => exact h e (by simp [hs])
    | waitDone => rfl

theorem NoReset.nextScript {s : State} (h : NoReset s.script) : NoReset s.nextScript := by
  have sub : s.nextScript ⊆ s.script := by
    unfold State.nextScript
    split
    · simp
    · rename_i hs; simp [hs]
    · rename_i hs; split <;> simp [hs]
  exact fun e he => h e (sub he)

/-- In `u` the operation `op` of `s` waits `n` edges more, and no result of `s` has changed; only its hidden cursor and
accumulator are free. -/
structure StillWaits (s : State) (op : InFlight) (n : Nat) (u : State) : Prop where
  inFlight : ∃ op' : InFlight, u.ce.op = some op' ∧ op'.kind = op.kind ∧ op'.snap = op.snap ∧ op'.wait = n
  crc : u.ce.crc = s.ce.crc
  vreason : u.ce.vreason = s.ce.vreason
  epoch : u.ce.epoch = s.ce.epoch
  noReset : NoReset u.script

/-- An edge with an operation in flight: its progress starts from its snapshot and the results as they stood, whatever
the bus access (20_memory.md R88). -/
theorem StillWaits.step_progress {s u : State} {op : InFlight} {n : Nat} (h : StillWaits s op n u) :
    ∃ (t : State) (c : Ce) (stride : Nat), step u = .next t ∧ t.ce = c.progress stride ∧ NoReset t.script ∧
      c.op = u.ce.op ∧ c.crc = s.ce.crc ∧ c.vreason = s.ce.vreason ∧ c.epoch = s.ce.epoch := by
  obtain ⟨op', hop, _⟩ := h.inFlight
  have inFlight : u.ce.op ≠ none := by simp [hop]
  obtain ⟨m, hm⟩ := busPhase_isNext u.nextInput.bus u.beginEdge
  obtain ⟨hkept, hcrc, hvreason, _, _, _, hepoch⟩ := busPhase_keeps_inFlight hm inFlight
  have ht := step_of_busPhase h.noReset.nextInput hm
  refine ⟨_, m.ce, Config.ceStride m.edges, ht, ?_, ?_, hkept, hcrc.trans h.crc, hvreason.trans h.vreason,
    hepoch.trans h.epoch⟩
  · simp [u.ce.busy_eq_true_iff.2 inFlight]
  · rw [(step_keeps ht).2.1]
    exact h.noReset.nextScript

theorem StillWaits.step_of_wait {s u : State} {op : InFlight} {n : Nat} (h : StillWaits s op (n + 1) u) :
    ∃ t, step u = .next t ∧ StillWaits s op n t := by
  obtain ⟨op', hop, hkind, hsnap, hwait⟩ := h.inFlight
  obtain ⟨t, c, stride, ht, hce, hscript, hkept, hcrc, hvreason, hepoch⟩ := h.step_progress
  obtain ⟨op'', hkind', hsnap', hwait', hprogress⟩ := Ce.progress_of_wait (hkept.trans hop) hwait stride
  rw [hprogress] at hce
  exact ⟨t, ht, ⟨op'', by rw [hce], hkind'.trans hkind, hsnap'.trans hsnap, hwait'⟩, by rwa [hce], by rwa [hce],
    by rwa [hce], hscript⟩

/-- After `k` edges the operation waits `k` edges less. -/
theorem StillWaits.reaches {s : State} {op : InFlight} (h : StillWaits s op op.wait s) :
    ∀ k, k ≤ op.wait → ∃ u, Reaches k s u ∧ StillWaits s op (op.wait - k) u
  | 0, _ => ⟨s, (reaches_zero s s).2 rfl, h⟩
  | k + 1, hk => by
    obtain ⟨u, hu, hwaits⟩ := h.reaches k (by omega)
    rw [show op.wait - k = op.wait - (k + 1) + 1 by omega] at hwaits
    obtain ⟨t, ht, hwaits'⟩ := hwaits.step_of_wait
    exact ⟨t, reaches_snoc hu ht, hwaits'⟩

/-- The result of `op` is in the registers of `t`, computed on its snapshot and the results of `s`
(40_crc_engine.md R143, R148). -/
def HasResult (s : State) (op : InFlight) (t : State) : Prop :=
  match op.kind with
  | .crc16 off len =>
    t.ce.crc = crc16 (memByte op.snap s.ce.epoch) len.toNat off.toNat ∧ t.ce.vreason = s.ce.vreason
  | .validate len =>
    t.ce.vreason = checkFrame (memByte op.snap s.ce.epoch) len.toNat ∧ t.ce.crc = s.ce.crc

/-- With no edge left to wait the operation completes at the next edge (40_crc_engine.md R149). -/
theorem StillWaits.completes {s u : State} {op : InFlight} (h : StillWaits s op 0 u) :
    ∃ t, step u = .next t ∧ t.ce.busy = false ∧ t.ce.done = true ∧ HasResult s op t := by
  obtain ⟨op', hop, hkind, hsnap, hwait⟩ := h.inFlight
  obtain ⟨t, c, stride, ht, hce, _, hkept, hcrc, hvreason, hepoch⟩ := h.step_progress
  rw [Ce.progress_of_done (hkept.trans hop) hwait] at hce
  refine ⟨t, ht, t.ce.busy_eq_false_iff.2 (by simp [hce]), by simp [hce], ?_⟩
  unfold HasResult
  cases hk : op.kind with
  | crc16 off len =>
    rw [hce, Ce.complete_of_crc16 (hkind.trans hk), hsnap, hepoch]
    exact ⟨rfl, hvreason⟩
  | validate len =>
    rw [hce, Ce.complete_of_validate (hkind.trans hk), hsnap, hepoch]
    exact ⟨rfl, hcrc⟩

/-- Settles O26: the operation waits `op.wait` edges and completes at the next one. -/
theorem inFlightOperationCompletes : Obligations.InFlightOperationCompletes := by
  intro s op hop hscript
  have start : StillWaits s op op.wait s := ⟨⟨op, hop, rfl, rfl, rfl⟩, rfl, rfl, rfl, hscript⟩
  refine ⟨fun k hk => ?_, ?_⟩
  · obtain ⟨u, hu, hwaits⟩ := start.reaches k hk
    obtain ⟨op', hop', _⟩ := hwaits.inFlight
    exact ⟨u, hu, u.ce.busy_eq_true_iff.2 (by simp [hop']), hwaits.crc, hwaits.vreason⟩
  · obtain ⟨u, hu, hwaits⟩ := start.reaches op.wait le_rfl
    rw [Nat.sub_self] at hwaits
    obtain ⟨t, ht, hbusy, hdone, hresult⟩ := hwaits.completes
    exact ⟨t, reaches_snoc hu ht, hbusy, hdone, hresult⟩

/-! ### From acceptance to the result -/

/-- A block command that is accepted runs its operation to the end, two edges later at the earliest
(40_crc_engine.md R142, R147, R149). -/
theorem reaches_result {s : State} {i : Instr} {k : CeKind} {rest : List HostStep} (hfree : s.ce.op = none)
    (hrest : NoReset rest) (hs : s.script = cmdCycle (encode i) :: rest)
    (hstart : exec i s.beginEdge = .next (startOp k s.beginEdge)) :
    ∃ n t op, 2 ≤ n ∧ Reaches n s t ∧ t.ce.busy = false ∧ t.ce.done = true ∧ op.kind = k ∧ op.snap = s.ce.dbuf ∧
      HasResult s op t := by
  obtain ⟨u, hu, hce, hscript⟩ := step_of_command hs hfree hstart
  obtain ⟨_, t, ht, hbusy, hdone, hresult⟩ :=
    inFlightOperationCompletes u _ (by rw [hce, startOp_ce_op]) (by rwa [hscript])
  rw [hce] at hresult
  exact ⟨_, t, _, by omega, reaches_succ hu ht, hbusy, hdone, rfl, rfl, hresult⟩

/-- Settles O27: each command starts its operation on DBUF and the operands at the command. -/
theorem resultDependsOnAcceptanceOnly : Obligations.ResultDependsOnAcceptanceOnly := by
  intro s rest hfree hrest
  refine ⟨fun hr hs => ?crc16, fun hr hs => ?validate⟩
  case crc16 =>
    obtain ⟨n, t, op, hn, ht, hbusy, hdone, hkind, hsnap, hresult⟩ :=
      reaches_result hfree hrest hs (exec_ceCrc16_of_inRange (s := s.beginEdge) hfree hr)
    rw [HasResult, hkind, hsnap] at hresult
    exact ⟨n, t, hn, ht, hbusy, hdone, hresult.1⟩
  case validate =>
    obtain ⟨n, t, op, hn, ht, hbusy, hdone, hkind, hsnap, hresult⟩ :=
      reaches_result hfree hrest hs (exec_ceValidate_of_inRange (s := s.beginEdge) hfree hr)
    rw [HasResult, hkind, hsnap] at hresult
    exact ⟨n, t, hn, ht, hbusy, hdone, hresult.2, hresult.1⟩

end Sys2Proof.Machine
end

section
/-! The FD commands (41_frame_detector.md R175 to R177): the effect in every state of the CE, and the illegal words of
their operation codes. -/

namespace Sys2Proof.Machine

theorem exec_fdPop (s : State) : exec .fdPop s = .next (s.withFd { s.fd with queue := s.fd.queue.tail }) := rfl

theorem exec_fdFlush (s : State) : exec .fdFlush s = .next (s.withFd s.fd.dropAsm) := rfl

theorem exec_fdQclear (s : State) : exec .fdQclear s = .next (s.withFd { s.fd with queue := [] }) := rfl

/-- Settles O11: the tail of an empty queue is the queue itself, the tail of `h :: q` is `q`. -/
theorem fdPopReleasesTheHead : Obligations.FdPopReleasesTheHead := by
  refine ⟨decode_encode .fdPop, fun s hq => ?_, fun s h q hq => ?_,
    fun s _ hopc hne => issue_of_extra_bits (i := .fdPop) rfl (by decide) s hopc hne⟩
  · have tail : s.fd.queue.tail = s.fd.queue := by simp [hq]
    rw [exec_fdPop, tail]
    rfl
  · rw [exec_fdPop, hq]
    rfl

/-- Settles O12: the command is `Fd.dropAsm`, and its operation code has one legal word. -/
theorem fdFlushDiscardsTheAssembly : Obligations.FdFlushDiscardsTheAssembly :=
  ⟨decode_encode .fdFlush, exec_fdFlush,
    fun s _ hopc hne => issue_of_extra_bits (i := .fdFlush) rfl (by decide) s hopc hne⟩

/-- Settles O13: the command empties the queue, and its operation code has one legal word. -/
theorem fdQclearEmptiesTheQueue : Obligations.FdQclearEmptiesTheQueue :=
  ⟨decode_encode .fdQclear, exec_fdQclear,
    fun s _ hopc hne => issue_of_extra_bits (i := .fdQclear) rfl (by decide) s hopc hne⟩

end Sys2Proof.Machine
end

section
/-! The FD's step written out, one equation for each outcome (41_frame_detector.md R163 to R172), and one edge seen by
the FD: the bus access first, then this step (10_state.md R62). The obligations about one edge follow from the two. -/

namespace Sys2Proof.Machine

/-! ### The outcomes of the FD's step -/

section
variable {p : Params} {f : Fd} {c : Cause} {b : Byte}

/-- A boundary with room in the queue (R172). -/
theorem Fd.emit_of_room (h : f.queue.length < p.qd) :
    f.emit p c = { f with asm := [], asmOvf := false, silCnt := 0, queue := f.queue ++ [⟨f.asm, c⟩] } := by
  rw [Fd.emit, if_pos h]
  rfl

/-- A boundary on a full queue (R172). -/
theorem Fd.emit_of_full (h : p.qd ≤ f.queue.length) :
    f.emit p c = { f with asm := [], asmOvf := false, silCnt := 0, errQovr := true } := by
  rw [Fd.emit, if_neg (Nat.not_lt.2 h)]
  rfl

/-- A byte that leaves the frame unfinished (R165). -/
theorem Fd.receive_of_unfinished (hroom : f.asm.length < p.fb) (hv : isValidFrame (f.asm ++ [b]) = false) :
    f.receive p b = { f with asm := f.asm ++ [b], silCnt := 0 } := by
  simp [Fd.receive, hroom, hv]

/-- A byte that makes the frame valid, with room in the queue (R167). -/
theorem Fd.receive_of_valid (hroom : f.asm.length < p.fb) (hv : isValidFrame (f.asm ++ [b]) = true)
    (hq : f.queue.length < p.qd) :
    f.receive p b =
      { f with asm := [], asmOvf := false, silCnt := 0, queue := f.queue ++ [⟨f.asm ++ [b], .valid⟩] } := by
  simp [Fd.receive, hroom, hv, Fd.emit_of_room, hq]

/-- A byte that makes the frame valid, on a full queue (R167, R172). -/
theorem Fd.receive_of_valid_of_queueFull (hroom : f.asm.length < p.fb) (hv : isValidFrame (f.asm ++ [b]) = true)
    (hq : p.qd ≤ f.queue.length) :
    f.receive p b = { f with asm := [], asmOvf := false, silCnt := 0, errQovr := true } := by
  simp [Fd.receive, hroom, hv, Fd.emit_of_full, hq]

/-- A byte that finds no room (R166). -/
theorem Fd.receive_of_full (hfull : p.fb ≤ f.asm.length) :
    f.receive p b = { f with asmOvf := true, silCnt := 0, errOvf := true } := by
  rw [Fd.receive, if_neg (Nat.not_lt.2 hfull)]
  rfl

theorem Fd.silent_of_empty (hasm : f.asm = []) : f.silent p = { f with silCnt := 0 } := by
  simp [Fd.silent, hasm]

/-- Below the timeout there is no boundary by silence (R170, R171). -/
theorem Fd.timeout_eq_false (h : f.silence ≠ 0 → f.silCnt.toNat + 1 < f.silence.toNat) : f.timeout = false := by
  rw [← Bool.not_eq_true, Fd.timeout_iff]
  exact fun ⟨hne, hle⟩ => Nat.not_lt.2 hle (h hne)

/-- The boundary by silence (R170). -/
theorem Fd.silent_of_timeout (hasm : f.asm ≠ []) (hto : f.timeout = true) :
    f.silent p = f.emit p (if f.asmOvf then .overflow else .silence) := by
  simp [Fd.silent, hasm, hto]

theorem Fd.silent_of_waiting (hasm : f.asm ≠ []) (hto : f.timeout = false) :
    f.silent p = { f with silCnt := satIncr f.silCnt } := by
  simp [Fd.silent, hasm, hto]

end

/-- Below its largest value the counter is not saturated (R160). -/
theorem satIncr_toNat_of_lt {c : Word} (h : c.toNat + 1 < 2 ^ 32) : (satIncr c).toNat = c.toNat + 1 := by
  rw [satIncr_toNat]
  omega

/-! ### One edge -/

section
variable {s : State} {e : EdgeInput} {rest : List HostStep} (hs : s.script = .cycle e :: rest) (hrst : e.rst = false)
include hs hrst

/-- The FD after an edge is one FD step from what the bus access left of it (10_state.md R62). -/
theorem step_fd_of_busPhase {m : State} (hm : busPhase e.bus s.beginEdge = .next m) :
    ∃ t, step s = .next t ∧ t.fd = m.fd.step s.params e := by
  obtain ⟨hparams, _⟩ := busPhase_keeps hm
  exact ⟨_, (step_of_cycle hs).trans (runEdge_of_busPhase hrst hm), by simp [hparams]⟩

/-- A register write that leaves `g` of the FD. -/
theorem step_fd_of_register {r : Reg} {w : Word} (g : Fd) (hb : e.bus = .write (regAddr r) w)
    (hm : writeReg w s.beginEdge r = .next (s.beginEdge.withFd g)) :
    ∃ t, step s = .next t ∧ t.fd = g.step s.params e :=
  step_fd_of_busPhase hs hrst (by rw [hb, busPhase, busWrite_regAddr, hm])

/-- A command that leaves `g` of the FD. -/
theorem step_fd_of_command {i : Instr} (g : Fd) (hb : e.bus = .write (regAddr .cmd) (encode i))
    (hm : exec i s.beginEdge = .next (s.beginEdge.withFd g)) :
    ∃ t, step s = .next t ∧ t.fd = g.step s.params e :=
  step_fd_of_register hs hrst g hb (by rw [writeReg, issue_of_legal (decode_encode i), hm])

end

/-- Settles O45: an FD that the access leaves disabled drops its buffer; a write of EN is such an access, and one that
enables the FD makes it receive. -/
theorem disabledDetectorDiscards : Obligations.DisabledDetectorDiscards := by
  intro s e rest hs hrst
  refine ⟨fun m hm hen => ⟨busPhase_keeps_fd (s := s.beginEdge) hm, ?_⟩, fun hb => ?disable,
    fun hb hasm hfb hv => ?enable⟩
  · obtain ⟨t, ht, hfd⟩ := step_fd_of_busPhase hs hrst hm
    exact ⟨t, ht, hfd.trans (Fd.step_of_disabled _ _ hen)⟩
  case disable =>
    obtain ⟨t, ht, hfd⟩ := step_fd_of_register hs hrst (r := .fdCtrl) { s.fd with en := false } hb rfl
    exact ⟨t, ht, hfd.trans (Fd.step_of_disabled _ _ rfl)⟩
  case enable =>
    obtain ⟨t, ht, hfd⟩ := step_fd_of_register hs hrst (r := .fdCtrl) { s.fd with en := true } hb rfl
    have room : s.fd.asm.length < s.params.fb := by simpa [hasm] using Nat.lt_of_succ_le hfb
    have unfinished : isValidFrame (s.fd.asm ++ [e.rxData]) = false := isValidFrame_of_short (by simp [hasm])
    have received := (hfd.trans (Fd.step_of_byte _ rfl hv)).trans (Fd.receive_of_unfinished room unfinished)
    exact ⟨t, ht, by rw [received], by simp [received, hasm]⟩

/-- Settles O46: one case for each outcome of `Fd.receive`. -/
theorem byteReceipt : Obligations.ByteReceipt := by
  intro s e rest m hs hrst hm hen hv bytes
  obtain ⟨t, ht, hfd⟩ := step_fd_of_busPhase hs hrst hm
  rw [Fd.step_of_byte _ hen hv] at hfd
  exact ⟨busPhase_keeps_fd (s := s.beginEdge) hm, t, ht,
    fun hroom hbytes => hfd.trans (Fd.receive_of_unfinished hroom hbytes),
    fun hroom hbytes hq => hfd.trans (Fd.receive_of_valid hroom hbytes hq),
    fun hroom hbytes hq => hfd.trans (Fd.receive_of_valid_of_queueFull hroom hbytes hq),
    fun hfull => hfd.trans (Fd.receive_of_full hfull)⟩

/-- Settles O47: one case for a character in progress and one for each outcome of `Fd.silent`. -/
theorem cycleWithoutByte : Obligations.CycleWithoutByte := by
  intro s e rest m hs hrst hm hen hv expired
  obtain ⟨t, ht, hfd⟩ := step_fd_of_busPhase hs hrst hm
  have silent (ha : e.rxActive = false) : t.fd = m.fd.silent s.params := hfd.trans (Fd.step_of_silent _ hen hv ha)
  have timeout : m.fd.timeout = true ↔ expired := m.fd.timeout_iff
  refine ⟨busPhase_keeps_fd (s := s.beginEdge) hm, t, ht, fun ha => ?_, fun ha hasm => ?_, fun ha hasm hwait => ?_,
    fun ha hasm hto hq => ?_, fun ha hasm hto hq => ?_⟩
  · rw [hfd, Fd.step_of_active _ hen hv ha]
  · rw [silent ha, Fd.silent_of_empty hasm]
  · rw [silent ha, Fd.silent_of_waiting hasm (Bool.eq_false_of_not_eq_true (mt timeout.1 hwait))]
    exact ⟨rfl, satIncr_toNat _⟩
  · rw [silent ha, Fd.silent_of_timeout hasm (timeout.2 hto), Fd.emit_of_room hq]
  · rw [silent ha, Fd.silent_of_timeout hasm (timeout.2 hto), Fd.emit_of_full hq]

/-- Settles O50: the command or the register write acts on the FD, and the FD's step goes on from there. -/
theorem sameEdgeOrder : Obligations.SameEdgeOrder := by
  intro s e rest hs hrst hen
  refine ⟨fun h q hb hv hvalid hroom hq hqd => ?pop, fun hb hv hvalid hroom hqd => ?qclear, fun hb hv hfb => ?flush,
    fun w hb hv ha hasm hqd hw => ?silence⟩
  case pop =>
    have popped : exec .fdPop s.beginEdge = .next (s.beginEdge.withFd { s.fd with queue := q }) := by
      rw [exec_fdPop, State.beginEdge_fd, hq, List.tail_cons]
    obtain ⟨t, ht, hfd⟩ := step_fd_of_command hs hrst (i := .fdPop) _ hb popped
    have received := (hfd.trans (Fd.step_of_byte _ hen hv)).trans (Fd.receive_of_valid hroom hvalid hqd)
    exact ⟨t, ht, by rw [received], by rw [received]⟩
  case qclear =>
    obtain ⟨t, ht, hfd⟩ := step_fd_of_command hs hrst (i := .fdQclear) { s.fd with queue := [] } hb rfl
    have received := (hfd.trans (Fd.step_of_byte _ hen hv)).trans (Fd.receive_of_valid hroom hvalid hqd)
    exact ⟨t, ht, by rw [received, List.nil_append]⟩
  case flush =>
    obtain ⟨t, ht, hfd⟩ := step_fd_of_command hs hrst (i := .fdFlush) s.fd.dropAsm hb rfl
    have unfinished : isValidFrame ([] ++ [e.rxData]) = false := isValidFrame_of_short (by simp)
    have received := (hfd.trans (Fd.step_of_byte _ hen hv)).trans (Fd.receive_of_unfinished hfb unfinished)
    exact ⟨t, ht, by simp [received], by simp [received]⟩
  case silence =>
    obtain ⟨t, ht, hfd⟩ := step_fd_of_register hs hrst (r := .fdSilence) { s.fd with silence := w } hb rfl
    have silent := hfd.trans (Fd.step_of_silent _ hen hv ha)
    refine ⟨t, ht, by rw [hfd, Fd.step_silence], fun hmet => ?met, fun hnot => ?notMet⟩
    case met =>
      have emitted := silent.trans (Fd.silent_of_timeout hasm ((Fd.timeout_iff _).2 ⟨hw, hmet⟩))
      rw [emitted, Fd.emit_queue, if_pos hqd]
    case notMet =>
      have waiting := silent.trans (Fd.silent_of_waiting hasm (Fd.timeout_eq_false fun _ => hnot))
      rw [waiting]
      exact ⟨rfl, rfl, satIncr_toNat_of_lt (hnot.trans_le w.isLt.le)⟩

/-- Settles O51: in the invariant cause VALID means that the frame check accepts the bytes, and it refuses these. -/
theorem shortAndForeignFramesAreNeverValid : Obligations.ShortAndForeignFramesAreNeverValid := by
  intro s r hinv hr hbad hcause
  have valid : isValidFrame r.bytes = true := (hinv.fdInv.framesCoherent r hr).validIff.1 hcause
  obtain ⟨hlen, hunit, _⟩ := isValidFrame_iff.1 valid
  omega

end Sys2Proof.Machine
end

section
/-! Runs of the FD over cycles that leave it to its own step: silence up to the timeout, and a stream of bytes with gaps
(41_frame_detector.md R170, R174). -/

namespace Sys2Proof.Machine

/-- The FD after the cycles `es`, where no bus access reaches it. -/
def Fd.run (p : Params) (es : List EdgeInput) (f : Fd) : Fd := es.foldl (fun f e => f.step p e) f

@[simp] theorem Fd.run_nil (p : Params) (f : Fd) : f.run p [] = f := rfl

@[simp] theorem Fd.run_cons (p : Params) (e : EdgeInput) (es : List EdgeInput) (f : Fd) :
    f.run p (e :: es) = (f.step p e).run p es := rfl

@[simp] theorem Fd.run_append (p : Params) (es es' : List EdgeInput) (f : Fd) :
    f.run p (es ++ es') = (f.run p es).run p es' := List.foldl_append

/-- As many edges as there are cycles take the FD through its run. -/
theorem reaches_run (rest : List HostStep) : ∀ (cycles : List EdgeInput) (s : State),
    (∀ e ∈ cycles, e.rst = false ∧ e.bus.leavesFd = true) → s.script = cycles.map .cycle ++ rest →
    ∃ t, Reaches cycles.length s t ∧ t.script = rest ∧ t.fd = s.fd.run s.params cycles
  | [], s, _, hs => ⟨s, (reaches_zero s s).2 rfl, hs, rfl⟩
  | e :: cycles, s, hcycles, hs => by
    obtain ⟨⟨hrst, hbus⟩, hcycles⟩ := List.forall_mem_cons.1 hcycles
    obtain ⟨m, hm⟩ := busPhase_isNext e.bus s.beginEdge
    obtain ⟨u, hu, hfd⟩ := step_fd_of_busPhase hs hrst hm
    obtain ⟨hparams, hscript, _⟩ := step_keeps hu
    obtain ⟨t, ht, hrest, htfd⟩ := reaches_run rest cycles u hcycles (hscript.trans (nextScript_of_cycle hs))
    rw [hfd, hparams, busPhase_keeps_fd hm hbus] at htfd
    exact ⟨t, reaches_succ hu ht, hrest, htfd⟩

/-! ### Silence -/

theorem EdgeInput.rxSilent_iff {e : EdgeInput} : e.rxSilent = true ↔ e.rxValid = false ∧ e.rxActive = false := by
  simp [EdgeInput.rxSilent]

/-- Silent cycles below the timeout count and change nothing else (R170). -/
theorem Fd.run_of_silent {p : Params} : ∀ {es : List EdgeInput} {f : Fd}, f.en = true → f.asm ≠ [] →
    (∀ e ∈ es, e.rxSilent = true) → f.silCnt.toNat + es.length < f.silence.toNat →
    ∃ c : Word, f.run p es = { f with silCnt := c } ∧ c.toNat = f.silCnt.toNat + es.length
  | [], f, _, _, _, _ => ⟨f.silCnt, rfl, rfl⟩
  | e :: es, f, hen, hasm, hes, hlt => by
    obtain ⟨hsilent, hes⟩ := List.forall_mem_cons.1 hes
    obtain ⟨hv, ha⟩ := EdgeInput.rxSilent_iff.1 hsilent
    rw [List.length_cons] at hlt ⊢
    have count : (satIncr f.silCnt).toNat = f.silCnt.toNat + 1 := satIncr_toNat_of_lt (by omega)
    have counted : f.step p e = { f with silCnt := satIncr f.silCnt } :=
      (Fd.step_of_silent p hen hv ha).trans (Fd.silent_of_waiting hasm (Fd.timeout_eq_false fun _ => by omega))
    have hlt : (satIncr f.silCnt).toNat + es.length < f.silence.toNat := by omega
    obtain ⟨c, hrun, hc⟩ := Fd.run_of_silent (p := p) (f := { f with silCnt := satIncr f.silCnt }) hen hasm hes hlt
    exact ⟨c, by rw [Fd.run_cons, counted, hrun], hc.trans (by simp only [count]; omega)⟩

/-- From sil_cnt 0 the S-th silent cycle ends the frame, S = FD_SILENCE (R170). -/
theorem Fd.run_of_timeout {p : Params} {es : List EdgeInput} {f : Fd} (hen : f.en = true) (hasm : f.asm ≠ [])
    (hcnt : f.silCnt = 0) (hsil : f.silence ≠ 0) (hes : ∀ e ∈ es, e.rxSilent = true)
    (hlen : es.length = f.silence.toNat) (hq : f.queue.length < p.qd) :
    f.run p es =
      { f with
        asm := []
        asmOvf := false
        silCnt := 0
        queue := f.queue ++ [⟨f.asm, if f.asmOvf then .overflow else .silence⟩] } := by
  obtain rfl | ⟨init, last, rfl⟩ := es.eq_nil_or_concat'
  · exact absurd (BitVec.eq_of_toNat_eq hlen.symm) hsil
  · obtain ⟨hinit, hlast⟩ := List.forall_mem_append.1 hes
    obtain ⟨hv, ha⟩ := EdgeInput.rxSilent_iff.1 (hlast last (List.mem_singleton_self last))
    have hlen : init.length + 1 = f.silence.toNat := by simpa using hlen
    have zero : f.silCnt.toNat = 0 := by simp [hcnt]
    obtain ⟨c, counted, hc⟩ := Fd.run_of_silent (p := p) hen hasm hinit (by omega)
    have expired : { f with silCnt := c }.timeout = true := (Fd.timeout_iff _).2 ⟨hsil, by simp only [hc]; omega⟩
    calc f.run p (init ++ [last])
      _ = { f with silCnt := c }.step p last := by rw [Fd.run_append, counted, Fd.run_cons, Fd.run_nil]
      _ = { f with silCnt := c }.silent p := Fd.step_of_silent p (by exact hen) hv ha
      _ = { f with silCnt := c }.emit p _ := Fd.silent_of_timeout (by exact hasm) expired
      _ = _ := Fd.emit_of_room hq

/-- Settles O48: before edge S the run only counts, and edge S ends the frame. -/
theorem silenceBoundaryAtEdgeS : Obligations.SilenceBoundaryAtEdgeS := by
  intro s cycles rest hen hasm hcnt hsil hqd hlen hcycles hs
  have quiet (e : EdgeInput) (he : e ∈ cycles) : e.rst = false ∧ e.bus.leavesFd = true :=
    (hcycles e he).imp_right And.left
  have silent (e : EdgeInput) (he : e ∈ cycles) : e.rxSilent = true := (hcycles e he).right.right
  refine ⟨fun k hk => ?earlier, ?atS⟩
  case earlier =>
    have len : (cycles.take k).length = k := List.length_take_of_le (by omega)
    have zero : s.fd.silCnt.toNat = 0 := by simp [hcnt]
    have script : s.script = (cycles.take k).map .cycle ++ ((cycles.drop k).map .cycle ++ rest) := by
      rw [hs, ← List.append_assoc, ← List.map_append, List.take_append_drop]
    obtain ⟨u, hu, _, hfd⟩ := reaches_run _ _ s (fun e he => quiet e (List.mem_of_mem_take he)) script
    obtain ⟨c, counted, hc⟩ := Fd.run_of_silent (p := s.params) hen hasm
      (fun e he => silent e (List.mem_of_mem_take (i := k) he)) (by omega)
    rw [counted] at hfd
    have hc : c.toNat = k := by omega
    exact ⟨u, len ▸ hu, by rw [hfd], by rw [hfd], by rw [hfd]; exact hc⟩
  case atS =>
    obtain ⟨t, ht, _, hfd⟩ := reaches_run rest cycles s quiet hs
    rw [Fd.run_of_timeout hen hasm hcnt hsil silent hlen hqd] at hfd
    exact ⟨t, hlen ▸ ht, by rw [hfd], by rw [hfd]⟩

/-! ### A stream of bytes -/

/-- A cycle without a byte and without a boundary moves sil_cnt alone, by at most one and only if it is silent (R168,
R170). -/
theorem Fd.step_of_gap {p : Params} {e : EdgeInput} {f : Fd} (hen : f.en = true) (hv : e.rxValid = false)
    (hto : e.rxSilent = true → f.timeout = false) :
    ∃ c, f.step p e = { f with silCnt := c } ∧ c.toNat ≤ f.silCnt.toNat + if e.rxSilent then 1 else 0 := by
  cases ha : e.rxActive with
  | true => exact ⟨0, Fd.step_of_active p hen hv ha, Nat.zero_le _⟩
  | false =>
    have silent : e.rxSilent = true := EdgeInput.rxSilent_iff.2 ⟨hv, ha⟩
    rw [Fd.step_of_silent p hen hv ha, if_pos silent]
    by_cases hasm : f.asm = []
    · exact ⟨0, Fd.silent_of_empty hasm, Nat.zero_le _⟩
    · refine ⟨_, Fd.silent_of_waiting hasm (hto silent), ?_⟩
      rw [satIncr_toNat]
      omega

/-- The cycles of a gap that stays below the timeout move sil_cnt alone (R168, R170). -/
theorem Fd.run_of_gap {p : Params} : ∀ {es : List EdgeInput} {f : Fd}, f.en = true → (∀ e ∈ es, e.rxValid = false) →
    (f.silence ≠ 0 → f.silCnt.toNat + es.countP EdgeInput.rxSilent < f.silence.toNat) →
    ∃ c, f.run p es = { f with silCnt := c }
  | [], f, _, _, _ => ⟨f.silCnt, rfl⟩
  | e :: es, f, hen, hes, hlt => by
    obtain ⟨hv, hes⟩ := List.forall_mem_cons.1 hes
    rw [List.countP_cons] at hlt
    have waiting (h : e.rxSilent = true) : f.timeout = false := Fd.timeout_eq_false fun hne => by
      have below := hlt hne
      rw [if_pos h] at below
      omega
    obtain ⟨c, hstep, hc⟩ := Fd.step_of_gap (p := p) hen hv waiting
    rw [Fd.run_cons, hstep]
    have below (hne : f.silence ≠ 0) : c.toNat + es.countP EdgeInput.rxSilent < f.silence.toNat := by
      have := hlt hne
      omega
    exact Fd.run_of_gap (f := { f with silCnt := c }) hen hes below

/-- A byte clears sil_cnt and writes neither FD register (R162, R165, R166). -/
@[simp] theorem Fd.receive_keeps (p : Params) (b : Byte) (f : Fd) :
    (f.receive p b).en = f.en ∧ (f.receive p b).silence = f.silence ∧ (f.receive p b).silCnt = 0 := by
  unfold Fd.receive
  dsimp only
  repeat' split
  all_goals simp

/-- The FD after the receipt of `bytes`, with nothing between one byte and the next. -/
def Fd.receiveAll (p : Params) (bytes : List Byte) (f : Fd) : Fd := bytes.foldl (fun f b => f.receive p b) f

@[simp] theorem Fd.receiveAll_nil (p : Params) (f : Fd) : f.receiveAll p [] = f := rfl

@[simp] theorem Fd.receiveAll_cons (p : Params) (b : Byte) (bytes : List Byte) (f : Fd) :
    f.receiveAll p (b :: bytes) = (f.receive p b).receiveAll p bytes := rfl

@[simp] theorem Fd.receiveAll_append (p : Params) (l r : List Byte) (f : Fd) :
    f.receiveAll p (l ++ r) = (f.receiveAll p l).receiveAll p r := List.foldl_append

/-- Gaps below the timeout make no difference to what is received: each byte clears what its gap counted (R174). -/
theorem Fd.run_of_gaps {p : Params} : ∀ {more : List (List EdgeInput × EdgeInput)} {f : Fd}, f.en = true →
    f.silCnt = 0 →
    (∀ g ∈ more, g.2.rxValid = true ∧ (∀ e ∈ g.1, e.rxValid = false) ∧
      (f.silence ≠ 0 → (g.1.filter EdgeInput.rxSilent).length < f.silence.toNat)) →
    f.run p (more.flatMap fun g => g.1 ++ [g.2]) = f.receiveAll p (more.map fun g => g.2.rxData)
  | [], _, _, _, _ => rfl
  | (gap, last) :: more, f, hen, hcnt, hmore => by
    obtain ⟨⟨hv, hgap, hshort⟩, hmore⟩ := List.forall_mem_cons.1 hmore
    obtain ⟨c, hrun⟩ := Fd.run_of_gap (p := p) hen hgap (by simpa [hcnt, List.countP_eq_length_filter] using hshort)
    have received : f.run p (gap ++ [last]) = f.receive p last.rxData := by
      rw [Fd.run_append, hrun]
      exact Fd.step_of_byte p hen hv
    rw [List.flatMap_cons, Fd.run_append, received]
    exact Fd.run_of_gaps (by simpa) (by simp) (by simpa using hmore)

/-- Bytes that complete no valid frame join the assembling buffer (R165). -/
theorem Fd.receiveAll_of_unfinished {p : Params} : ∀ {bytes : List Byte} {f : Fd},
    (f.asm ++ bytes).length ≤ p.fb → NoValidPrefix (f.asm ++ bytes) →
    (f.receiveAll p bytes).asm = f.asm ++ bytes ∧ (f.receiveAll p bytes).queue = f.queue
  | [], f, _, _ => by simp
  | b :: bytes, f, hfits, hproper => by
    rw [List.append_cons] at hfits hproper ⊢
    have room : f.asm.length < p.fb := by
      simp only [List.length_append, List.length_singleton] at hfits
      omega
    have unfinished : isValidFrame (f.asm ++ [b]) = false := by
      simpa only [List.take_left] using hproper (f.asm ++ [b]).length (by simp)
    rw [Fd.receiveAll_cons, Fd.receive_of_unfinished room unfinished]
    exact Fd.receiveAll_of_unfinished (f := { f with asm := f.asm ++ [b], silCnt := 0 }) hfits hproper

/-- A valid frame with no valid proper beginning enters the queue at its last byte (R167). -/
theorem Fd.receiveAll_of_valid {p : Params} {bytes : List Byte} {f : Fd} (hasm : f.asm = [])
    (hq : f.queue.length < p.qd) (hfits : bytes.length ≤ p.fb)
    (hproper : ∀ k, k < bytes.length → isValidFrame (bytes.take k) = false) (hvalid : isValidFrame bytes = true) :
    (f.receiveAll p bytes).asm = [] ∧ (f.receiveAll p bytes).queue = f.queue ++ [⟨bytes, .valid⟩] := by
  obtain rfl | ⟨init, last, rfl⟩ := bytes.eq_nil_or_concat'
  · exact absurd hvalid (by decide)
  · rw [List.length_append, List.length_singleton] at hfits hproper
    have unfinished : NoValidPrefix init := fun k hk => by
      rw [← List.take_append_of_le_length (l₂ := [last]) hk]
      exact hproper k (Nat.lt_succ_of_le hk)
    obtain ⟨hinit, hqueue⟩ := Fd.receiveAll_of_unfinished (p := p) (f := f) (bytes := init)
      (by rw [hasm]; exact Nat.le_of_succ_le hfits) (by rwa [hasm])
    rw [hasm, List.nil_append] at hinit
    rw [Fd.receiveAll_append, Fd.receiveAll_cons, Fd.receiveAll_nil,
      Fd.receive_of_valid (by rwa [hinit]) (by rwa [hinit]) (by rwa [hqueue]), hinit, hqueue]
    exact ⟨rfl, rfl⟩

/-- Settles O49: the run over the stream is the receipt of its bytes, which are a valid frame only at the last one. -/
theorem gappedStreamIsOneFrame : Obligations.GappedStreamIsOneFrame := by
  intro s first more rest bytes hen hasm hqd hquiet hv hmore hfits hproper hvalid hs
  obtain ⟨t, ht, hrest, hfd⟩ := reaches_run rest _ s hquiet hs
  have received : t.fd = s.fd.receiveAll s.params bytes := by
    rw [hfd, streamInputs, Fd.run_cons, Fd.step_of_byte _ hen hv]
    exact Fd.run_of_gaps (by simpa) (by simp) (by simpa using hmore)
  exact ⟨t, ht, hrest, received ▸ Fd.receiveAll_of_valid hasm hqd hfits hproper hvalid⟩

end Sys2Proof.Machine
end

section
/-! The error flags over one edge (60_exceptions.md R200 to R205): raising one passes unseen through the CE and the FD,
the bus access alone clears a flag, and each error of the CE has its cause in the bus access. -/

namespace Sys2Proof.Machine

/-! ### Every edge has a next state -/

theorem step_isNext (s : State) : ∃ t, step s = .next t := by
  cases hrst : s.nextInput.rst with
  | true => exact ⟨_, step_of_reset hrst⟩
  | false =>
    obtain ⟨m, hm⟩ := busPhase_isNext s.nextInput.bus s.beginEdge
    exact ⟨_, step_of_busPhase hrst hm⟩

/-- Settles O54: no phase of an edge stops, and none changes the parameters. -/
theorem everyEdgeHasANextState : Obligations.EveryEdgeHasANextState := by
  intro s
  obtain ⟨t, ht⟩ := step_isNext s
  obtain ⟨hparams, _, _, hedges⟩ := step_keeps ht
  exact ⟨t, ht, hparams, hedges⟩

/-! ### Errors are precise -/

theorem Ce.complete_raise (op : InFlight) (x : Err) (c : Ce) : (c.raise x).complete op = (c.complete op).raise x := by
  cases hk : op.kind with
  | crc16 off len => cases x <;> simp only [Ce.complete, hk, Ce.raise]
  | validate len => cases x <;> simp only [Ce.complete, hk, Ce.raise]

/-- The CE's progress goes on as without the error. -/
theorem Ce.progress_raise (stride : Nat) (x : Err) (c : Ce) :
    (c.raise x).progress stride = (c.progress stride).raise x := by
  have kept : (c.raise x).op = c.op := c.raise_op x
  cases hop : c.op with
  | none => rw [Ce.progress_of_none hop, Ce.progress_of_none (kept.trans hop)]
  | some op =>
    cases hw : op.wait with
    | zero => rw [Ce.progress_of_done hop hw, Ce.progress_of_done (kept.trans hop) hw, Ce.complete_raise]
    | succ n => cases x <;> simp [Ce.progress, Ce.raise, hop, hw]

theorem cePhase_raise (b : Bool) (x : Err) (s : State) : cePhase b (s.raise x) = (cePhase b s).raise x := by
  cases b with
  | false => rfl
  | true =>
    simp only [cePhase, if_true, State.raise_ce, State.raise_edges, Ce.progress_raise]
    rfl

/-- The FD does not see an error of the CE. -/
theorem fdPhase_raise {x : Err} (hx : x ∈ [Err.illegal, .busy, .range]) (e : EdgeInput) (s : State) :
    fdPhase e (s.raise x) = (fdPhase e s).raise x := by
  simp only [List.mem_cons, List.not_mem_nil, or_false] at hx
  rcases hx with rfl | rfl | rfl <;> rfl

theorem State.readData_of_not_read {b : BusAccess} (hb : ∀ a, b ≠ .read a) (s : State) : s.readData b = none := by
  cases b with
  | read a => exact absurd rfl (hb a)
  | idle | write => rfl

/-- Before step 2 a cycle that does not read is the cycle without its access. -/
theorem State.beginEdge_of_idle {s : State} {e : EdgeInput} {rest : List HostStep} (hs : s.script = .cycle e :: rest)
    (hread : ∀ a, e.bus ≠ .read a) :
    { s with script := .cycle { e with bus := .idle } :: rest }.beginEdge = s.beginEdge := by
  rw [State.beginEdge, State.beginEdge, nextInput_of_cycle hs, nextScript_of_cycle hs, State.readData_of_not_read hread]
  rfl

/-- Settles O16: the two edges differ in the flag after step 2, and steps 3 and 4 carry it along. -/
theorem errorsArePrecise : Obligations.ErrorsArePrecise := by
  intro s e rest x hs hrst hx hm hread
  refine ⟨fdPhase e (cePhase s.ce.busy s.beginEdge), ?_, ?_⟩
  · rw [step_of_cycle rfl, State.beginEdge_of_idle hs hread]
    exact runEdge_of_busPhase (e := { e with bus := .idle }) hrst rfl
  · rw [step_of_cycle hs, runEdge_of_busPhase hrst hm, cePhase_raise, fdPhase_raise hx]
    rfl

/-! ### The flags in step 2 -/

/-- Settles O42: a write at a status register's address clears that register's flags. -/
theorem writeOneClearsFlags : Obligations.WriteOneClearsFlags :=
  fun s w => ⟨busWrite_regAddr .ceStatus w s, busWrite_regAddr .fdStatus w s⟩

/-- The bus access that raises each error of the CE (60_exceptions.md R201 to R203). -/
def CeErrorCause (b : BusAccess) (s : State) : Err → Prop
  | .illegal => ∃ a w e, b = .write a w ∧ addrTarget a = .reg .cmd ∧ decode w = .illegal e
  | .busy => s.ce.op ≠ none ∧ ∃ a w, b = .write a w ∧
      ((addrTarget a = .reg .cmd ∧ ∃ i, decode w = .legal i ∧ i.isCeCommand = true) ∨
        addrTarget a ∈ [.reg .ceCrc, .reg .ceOffset, .reg .ceLength] ∨
        ∃ j, addrTarget a = .dbuf j ∧ j < s.params.dbufBytes)
  | .range => s.ce.op = none ∧ ∃ a w, b = .write a w ∧ addrTarget a = .reg .cmd ∧
      ((decode w = .legal .ceCrc16 ∧ s.params.dbufBytes < s.ce.offset.toNat + s.ce.length.toNat) ∨
        (decode w = .legal .ceValidate ∧ s.params.dbufBytes < s.ce.length.toNat))
  | .ovf | .qovr => False

/-- What the bus access can do to DONE and the CE's error flags: nothing, clear some by a write to CE_STATUS, or raise
one error. -/
inductive CeFlagsAfterBus (b : BusAccess) (s : State) : Ce → Prop where
  | same (c : Ce) (hdone : c.done = s.ce.done) (hillegal : c.errIllegal = s.ce.errIllegal)
      (hbusy : c.errBusy = s.ce.errBusy) (hrange : c.errRange = s.ce.errRange) : CeFlagsAfterBus b s c
  | cleared (w : Word) (hw : b.Writes (.reg .ceStatus) w) : CeFlagsAfterBus b s (s.ce.clearFlags w)
  | raised (x : Err) (hx : CeErrorCause b s x) : CeFlagsAfterBus b s (s.ce.raise x)

/-- A command's share of step 2 in the CE's flags (30_encoding.md R119). -/
theorem exec_ceFlags {i : Instr} {a : BusAddr} {w : Word} {s t : State} (ha : addrTarget a = .reg .cmd)
    (hd : decode w = .legal i) (h : exec i s = .next t) : CeFlagsAfterBus (.write a w) s t.ce := by
  rcases exec_cases h with ⟨_, rfl⟩ | ⟨hop, hi, rfl⟩ | ⟨hop, rfl, hr⟩ | ⟨_, _, rfl⟩ | ⟨_, x, _, rfl⟩ | ⟨_, _, rfl, _⟩ |
    ⟨_, _, rfl, _⟩ | ⟨_, rfl⟩ | ⟨_, rfl⟩ | ⟨_, rfl⟩
  case inr.inl => exact .raised .busy ⟨hop, a, w, rfl, .inl ⟨ha, i, hd, hi⟩⟩
  case inr.inr.inl =>
    exact .raised .range ⟨hop, a, w, rfl, ha, hr.imp (fun ⟨hi, hr⟩ => ⟨hi ▸ hd, hr⟩) fun ⟨hi, hr⟩ => ⟨hi ▸ hd, hr⟩⟩
  all_goals exact .same _ rfl rfl rfl rfl

theorem busPhase_ceFlags {b : BusAccess} {s t : State} (h : busPhase b s = .next t) : CeFlagsAfterBus b s t.ce := by
  cases b with
  | idle => cases h; exact .same _ rfl rfl rfl rfl
  | read a => cases h; exact .same _ rfl rfl rfl rfl
  | write a w =>
    rcases busWrite_cases h with rfl | ⟨ha, e, hd, rfl⟩ | ⟨ha, i, hd, hi⟩ | ⟨ha, rfl⟩ | ⟨hop, rfl, ha⟩ | ⟨_, _, rfl⟩ |
      ⟨_, _, rfl⟩ | ⟨_, _, rfl⟩ | ⟨_, rfl⟩ | ⟨_, rfl⟩ | ⟨_, rfl⟩ | ⟨_, rfl⟩ | ⟨_, j, _, _, rfl⟩
    case inr.inl => exact .raised .illegal ⟨a, w, e, rfl, ha, hd⟩
    case inr.inr.inl => exact exec_ceFlags ha hd hi
    case inr.inr.inr.inl => exact .cleared w ⟨a, rfl, ha⟩
    case inr.inr.inr.inr.inl => exact .raised .busy ⟨hop, a, w, rfl, .inr ha⟩
    all_goals exact .same _ rfl rfl rfl rfl

/-! ### Which flags fall -/

/-- The cycle writes a word with this bit 1 to the register. -/
def BusAccess.WritesOne (b : BusAccess) (r : Reg) (bit : Nat) : Prop :=
  ∃ a w, b = .write a w ∧ addrTarget a = .reg r ∧ w.getLsbD bit = true

/-- A W1C flag that a write took from 1 to 0. -/
theorem BusAccess.Writes.one {b : BusAccess} {r : Reg} {w : Word} {bit : Nat} {flag : Bool} (hw : b.Writes (.reg r) w)
    (hset : flag = true) (hclear : (flag && !w.getLsbD bit) = false) : b.WritesOne r bit := by
  obtain ⟨a, hb, ha⟩ := hw
  exact ⟨a, w, hb, ha, by simpa [hset] using hclear⟩

theorem CeFlagsAfterBus.falls {b : BusAccess} {s : State} {c : Ce} (h : CeFlagsAfterBus b s c) :
    (s.ce.done = true → c.done = false → b.WritesOne .ceStatus 1) ∧
    (s.ce.errIllegal = true → c.errIllegal = false → b.WritesOne .ceStatus 8) ∧
    (s.ce.errBusy = true → c.errBusy = false → b.WritesOne .ceStatus 9) ∧
    (s.ce.errRange = true → c.errRange = false → b.WritesOne .ceStatus 10) := by
  cases h with
  | same _ hdone hillegal hbusy hrange => simp +contextual [hdone, hillegal, hbusy, hrange]
  | cleared w hw => exact ⟨hw.one, hw.one, hw.one, hw.one⟩
  | raised x => simp +contextual

theorem FdAfterBus.falls {b : BusAccess} {f g : Fd} (h : FdAfterBus b f g) :
    (f.errOvf = true → g.errOvf = false → b.WritesOne .fdStatus 8) ∧
    (f.errQovr = true → g.errQovr = false → b.WritesOne .fdStatus 9) := by
  cases h with
  | flags w hw => exact ⟨hw.one, hw.one⟩
  | _ => simp +contextual

theorem Ce.progress_keeps_done {c : Ce} (h : c.done = true) (stride : Nat) : (c.progress stride).done = true := by
  cases hop : c.op with
  | none => rwa [Ce.progress_of_none hop]
  | some op =>
    cases hw : op.wait with
    | zero => simp [Ce.progress_of_done hop hw]
    | succ n =>
      obtain ⟨_, _, _, _, hprogress⟩ := Ce.progress_of_wait hop hw stride
      rwa [hprogress]

theorem cePhase_keeps_done {m : State} (h : m.ce.done = true) (b : Bool) : (cePhase b m).ce.done = true := by
  cases b with
  | false => exact h
  | true => exact Ce.progress_keeps_done h _

theorem cePhase_errors (b : Bool) (m : State) :
    (cePhase b m).ce.errIllegal = m.ce.errIllegal ∧ (cePhase b m).ce.errBusy = m.ce.errBusy ∧
      (cePhase b m).ce.errRange = m.ce.errRange := by
  cases b with
  | false => exact ⟨rfl, rfl, rfl⟩
  | true => exact Ce.progress_errors _ _

/-- An edge without reset has made its bus access (10_state.md R62). -/
theorem busPhase_of_step {s t : State} (hrst : s.nextInput.rst = false) (h : step s = .next t) :
    ∃ m, busPhase s.nextInput.bus s.beginEdge = .next m ∧ t = fdPhase s.nextInput (cePhase s.ce.busy m) :=
  (step_cases h).elim (fun ⟨hrst', _⟩ => absurd hrst' (by simp [hrst])) And.right

/-- Settles O44: steps 3 and 4 clear no flag, so a flag that falls has fallen in step 2. -/
theorem flagsClearedOnlyByHost : Obligations.FlagsClearedOnlyByHost := by
  intro s t hstep hrst
  obtain ⟨m, hm, rfl⟩ := busPhase_of_step hrst hstep
  have before {x y : Bool} (keeps : x = true → y = true) (hy : y = false) : x = false :=
    Bool.eq_false_iff.2 fun hx => by simp [keeps hx] at hy
  obtain ⟨done, illegal, busy, range⟩ := (busPhase_ceFlags hm).falls
  obtain ⟨ovf, qovr⟩ := (busPhase_fd hm).falls
  obtain ⟨sameIllegal, sameBusy, sameRange⟩ := cePhase_errors s.ce.busy m
  obtain ⟨keepsOvf, keepsQovr⟩ := Fd.step_keeps_errors m.params s.nextInput m.fd
  exact ⟨fun h h' => done h (before (cePhase_keeps_done · s.ce.busy) h'),
    fun h h' => illegal h (sameIllegal.symm.trans h'),
    fun h h' => busy h (sameBusy.symm.trans h'),
    fun h h' => range h (sameRange.symm.trans h'),
    fun h h' => ovf h (before keepsOvf (by simpa using h')),
    fun h h' => qovr h (before keepsQovr (by simpa using h'))⟩

/-! ### Which errors rise -/

theorem CeFlagsAfterBus.rises {b : BusAccess} {s : State} {c : Ce} (h : CeFlagsAfterBus b s c) :
    (s.ce.errIllegal = false → c.errIllegal = true → CeErrorCause b s .illegal) ∧
    (s.ce.errBusy = false → c.errBusy = true → CeErrorCause b s .busy) ∧
    (s.ce.errRange = false → c.errRange = true → CeErrorCause b s .range) := by
  cases h with
  | same _ _ hillegal hbusy hrange => simp +contextual [hillegal, hbusy, hrange]
  | cleared w hw => simp +contextual
  | raised x hx => cases x <;> simp +contextual [hx]

/-- Settles O59: steps 3 and 4 leave the CE's errors alone, and step 2 raises each by its cause. -/
theorem engineErrorsOnlyByTheirCauses : Obligations.EngineErrorsOnlyByTheirCauses := by
  intro s t hstep hrst
  obtain ⟨m, hm, rfl⟩ := busPhase_of_step hrst hstep
  obtain ⟨illegal, busy, range⟩ := (busPhase_ceFlags hm).rises
  obtain ⟨sameIllegal, sameBusy, sameRange⟩ := cePhase_errors s.ce.busy m
  exact ⟨fun h h' => illegal h (sameIllegal.symm.trans h'),
    fun h h' => busy h (sameBusy.symm.trans h'),
    fun h h' => range h (sameRange.symm.trans h')⟩

end Sys2Proof.Machine
end

section
/-! Reset (70_reset_and_hazards.md R230): the reset block shows 0 in every status word, and it meets the invariant. -/

namespace Sys2Proof.Machine

/-! ### What the reset block shows -/

@[simp] theorem bitAt_false (n : Nat) : bitAt false n = 0 := by simp [bitAt]

theorem Ce.reset_busy (epoch : Nat) : (Ce.reset epoch).busy = false := rfl

theorem Ce.reset_valid (epoch : Nat) : (Ce.reset epoch).valid = false := rfl

theorem Ce.reset_statusWord (epoch : Nat) : (Ce.reset epoch).statusWord = 0 := by
  rw [Ce.statusWord, Ce.reset_busy, Ce.reset_valid]
  simp [Ce.reset, VReason.code]

@[simp] theorem Fd.reset_qne (p : Params) : (Fd.reset p).qne = false := rfl

/-- QFULL is 0 on the empty queue because QD is at least 1 (00_scope.md R8). -/
theorem Fd.reset_qfull {p : Params} (h : p.legal = true) : (Fd.reset p).qfull p = false := by
  obtain ⟨_, _, _, ⟨hqd, _⟩, _⟩ := p.legal_iff.1 h
  exact decide_eq_false (Nat.ne_of_lt hqd)

theorem Fd.reset_statusWord {p : Params} (h : p.legal = true) : (Fd.reset p).statusWord p = 0 := by
  rw [Fd.statusWord, Fd.reset_qne, Fd.reset_qfull h]
  simp [Fd.reset]

theorem State.resetBlock_err (s : State) (x : Err) : s.resetBlock.err x = false := by
  cases x <;> rfl

@[simp] theorem State.resetBlock_anyErr (s : State) : s.resetBlock.anyErr = false := rfl

@[simp] theorem State.resetBlock_irq (s : State) : s.resetBlock.irq = false := by
  simp [State.irq]

theorem State.resetBlock_intStatusWord (s : State) : s.resetBlock.intStatusWord = 0 := by
  simp [State.intStatusWord, Ce.reset]

/-! ### The reset edge and the state after reset -/

/-- Settles O30: the edge is `resetBlock`, whose fields are R230's table; of the words it shows, FD_STATUS alone needs the
legal build, for QFULL. -/
theorem resetEdgeGivesResetValues : Obligations.ResetEdgeGivesResetValues := by
  intro s e rest hs hrst hlegal
  have hstep : step s = .next s.beginEdge.resetBlock := step_of_reset (by rw [nextInput_of_cycle hs, hrst])
  have hfdStatus : readReg s.beginEdge.resetBlock .fdStatus = 0 := Fd.reset_statusWord hlegal
  exact ⟨_, hstep, rfl,
    -- the CE and the error flags
    rfl, rfl, rfl, rfl, Ce.reset_busy _, rfl, Ce.reset_valid _, rfl, State.resetBlock_err _,
    -- INT_EN and the FD
    rfl, rfl, rfl, rfl, rfl, rfl, rfl,
    -- what the registers and `irq` show
    rfl, rfl, Ce.reset_statusWord _, hfdStatus, rfl, rfl, State.resetBlock_intStatusWord _, State.resetBlock_irq _⟩

/-- The state after reset is a fixed point of the block's reset, since it counts no edge (log entry 3). -/
theorem State.reset_resetBlock : State.reset.resetBlock = State.reset := rfl

/-- Settles O52: a reset of any legal build gives the invariant, and the default build is legal. -/
theorem invariantHoldsAtReset : Obligations.InvariantHoldsAtReset := by
  have hreset : State.reset.resetBlock.Inv := State.Inv.resetBlock Params.default_legal
  rwa [State.reset_resetBlock] at hreset

end Sys2Proof.Machine
end
